-- ==== Sys2Proof/Word.lean ====
section
/-!
DEFINITION. The word types of octochip-8 (`00_scope.md` R7, R9; `10_state.md` R20). All values are unsigned.
-/

namespace Sys2Proof

/-- A memory cell, a general register, a timer, an 8-bit operand NN (R7 `REG_WIDTH`, R50). -/
abbrev Byte := BitVec 8

/-- An instruction word, I, PC, a call-stack entry, the opcode latch (R7 `I_WIDTH`, `PC_WIDTH`). -/
abbrev Word := BitVec 16

/-- The 12-bit operand NNN (R82), zero extended wherever it is used. -/
abbrev Addr12 := BitVec 12

/-- The number of a general register: X or Y of an instruction (R10, R21). -/
abbrev Reg := Fin 16

/-- The number of a key (R32). -/
abbrev Key := Fin 16

/-- The operand N of DXYN, a number 0 to 15 (R82). -/
abbrev Nib := Fin 16

/-- The register number of VF, the flag (R22). -/
abbrev regF : Reg := 15

end Sys2Proof
end

