-- ==== Sys2Proof/Config.lean ====
section
/-!
DEFINITION. The sizes `00_scope.md` R7 fixes, and the free values of R8. `FONT_TABLE` is an argument of the machine
(`Machine/Font.lean`, `State.resetWith`). The parameters of R7 that evidence from outside the spec could still change (`SPRITE_ROW_BIAS`,
`LOAD_LIMIT`) stand beside the operations that use them: `Machine/Operands.lean`, `Machine/Caller.lean`.
-/

namespace Sys2Proof

/-- `MEM_SIZE` (R7, R50): the legal addresses are 0 to 4095. -/
abbrev Config.memSize : Nat := 4096

/-- `PROG_BASE` (R7): where the program is loaded and where PC starts. -/
abbrev Config.progBase : Nat := 0x200

/-- `FONT_BYTES` (R7, R263): the font table occupies the addresses below. -/
abbrev Config.fontBytes : Nat := 80

/-- `FB_W` (R7): framebuffer columns. -/
abbrev Config.fbWidth : Nat := 64

/-- `FB_H` (R7): framebuffer rows. -/
abbrev Config.fbHeight : Nat := 32

/-- `STACK_DEPTH` (R7): call-stack entries. -/
abbrev Config.stackDepth : Nat := 16

/-- `NKEYS` (R7): keys, numbered 0 to 15. -/
abbrev Config.numKeys : Nat := 16

/-- `RNG` (R8, R166, D13), DESIGN CHOICE of form, log 2: the n-th random byte a run draws. A free value: it has
no body, so every claim holds whatever the bytes are. -/
opaque Config.randomByte : Nat → Byte

/-- `KEYWAIT_PICK` (R8, R203, D12), DESIGN CHOICE of form, log 3: the n-th free choice a run draws among pressed keys. A free
value; `Machine.chooseKey` reduces it to an index into the pressed keys. -/
opaque Config.keyPick : Nat → Nat

end Sys2Proof
end

