-- ==== Sys2Proof/Syntax.lean ====
section
/-!
DEFINITION. The instructions: one constructor per row of `spec/opcode_table.json`, in the table's order
(`30_encoding.md` R84). Operand types carry the operand ranges of R82 and R92.
-/

namespace Sys2Proof

/-- The 34 instructions of R84. The names are the table's mnemonics in lower camel case. -/
inductive Instr where
  /-- 00E0, R120 -/
  | cls
  /-- 00EE, R131 -/
  | ret
  /-- 1NNN, R132 -/
  | jpNnn (nnn : Addr12)
  /-- 2NNN, R133 -/
  | callNnn (nnn : Addr12)
  /-- 3XNN, R136 -/
  | seVxNn (x : Reg) (nn : Byte)
  /-- 4XNN, R137 -/
  | sneVxNn (x : Reg) (nn : Byte)
  /-- 5XY0, R138 -/
  | seVxVy (x y : Reg)
  /-- 6XNN, R151 -/
  | ldVxNn (x : Reg) (nn : Byte)
  /-- 7XNN, R152 -/
  | addVxNn (x : Reg) (nn : Byte)
  /-- 8XY0, R153 -/
  | ldVxVy (x y : Reg)
  /-- 8XY1, R154 -/
  | orVxVy (x y : Reg)
  /-- 8XY2, R155 -/
  | andVxVy (x y : Reg)
  /-- 8XY3, R156 -/
  | xorVxVy (x y : Reg)
  /-- 8XY4, R157 -/
  | addVxVy (x y : Reg)
  /-- 8XY5, R158 -/
  | subVxVy (x y : Reg)
  /-- 8XY6, R159. The word's Y field is kept (R92 `SHR Vx, Vy`) so that every word round trips; it has no effect (R90). -/
  | shrVx (x y : Reg)
  /-- 8XY7, R160 -/
  | subnVxVy (x y : Reg)
  /-- 8XYE, R161. The word's Y field is kept, as in `shrVx`; it has no effect (R90). -/
  | shlVx (x y : Reg)
  /-- 9XY0, R139 -/
  | sneVxVy (x y : Reg)
  /-- ANNN, R181 -/
  | ldINnn (nnn : Addr12)
  /-- BNNN, R135 -/
  | jpV0Nnn (nnn : Addr12)
  /-- CXNN, R162 -/
  | rndVxNn (x : Reg) (nn : Byte)
  /-- DXYN, R122 -/
  | drwVxVyN (x y : Reg) (n : Nib)
  /-- EX9E, R201 -/
  | skpVx (x : Reg)
  /-- EXA1, R202 -/
  | sknpVx (x : Reg)
  /-- FX07, R205 -/
  | ldVxDt (x : Reg)
  /-- FX0A, R204 -/
  | ldVxK (x : Reg)
  /-- FX15, R206 -/
  | ldDtVx (x : Reg)
  /-- FX18, R207 -/
  | ldStVx (x : Reg)
  /-- FX1E, R182 -/
  | addIVx (x : Reg)
  /-- FX29, R183 -/
  | ldFVx (x : Reg)
  /-- FX33, R185 -/
  | ldBVx (x : Reg)
  /-- FX55, R186 -/
  | ldMiVx (x : Reg)
  /-- FX65, R187 -/
  | ldVxMi (x : Reg)
deriving DecidableEq, Repr

/-- The row of `spec/opcode_table.json` an instruction belongs to, by its mnemonic (R84, R92). -/
def Instr.mnemonic : Instr → String
  | .cls => "CLS"
  | .ret => "RET"
  | .jpNnn _ => "JP_NNN"
  | .callNnn _ => "CALL_NNN"
  | .seVxNn _ _ => "SE_VX_NN"
  | .sneVxNn _ _ => "SNE_VX_NN"
  | .seVxVy _ _ => "SE_VX_VY"
  | .ldVxNn _ _ => "LD_VX_NN"
  | .addVxNn _ _ => "ADD_VX_NN"
  | .ldVxVy _ _ => "LD_VX_VY"
  | .orVxVy _ _ => "OR_VX_VY"
  | .andVxVy _ _ => "AND_VX_VY"
  | .xorVxVy _ _ => "XOR_VX_VY"
  | .addVxVy _ _ => "ADD_VX_VY"
  | .subVxVy _ _ => "SUB_VX_VY"
  | .shrVx _ _ => "SHR_VX"
  | .subnVxVy _ _ => "SUBN_VX_VY"
  | .shlVx _ _ => "SHL_VX"
  | .sneVxVy _ _ => "SNE_VX_VY"
  | .ldINnn _ => "LD_I_NNN"
  | .jpV0Nnn _ => "JP_V0_NNN"
  | .rndVxNn _ _ => "RND_VX_NN"
  | .drwVxVyN _ _ _ => "DRW_VX_VY_N"
  | .skpVx _ => "SKP_VX"
  | .sknpVx _ => "SKNP_VX"
  | .ldVxDt _ => "LD_VX_DT"
  | .ldVxK _ => "LD_VX_K"
  | .ldDtVx _ => "LD_DT_VX"
  | .ldStVx _ => "LD_ST_VX"
  | .addIVx _ => "ADD_I_VX"
  | .ldFVx _ => "LD_F_VX"
  | .ldBVx _ => "LD_B_VX"
  | .ldMiVx _ => "LD_MI_VX"
  | .ldVxMi _ => "LD_VX_MI"

end Sys2Proof
end

