-- ==== Sys2Proof/WellFormed.lean ====
section
/-!
DEFINITION. Well-formedness. An `Instr` needs no check of its own: R90 says no operand value is illegal in a
recognized instruction, and the operand types of `Instr` hold exactly the values R82 gives each field. What can be
ill formed is what enters the machine as plain bits: an instruction WORD, which must match a row of the opcode map
(R83, R84, R86). The check is written from R84's masks alone, not from the decoder, so that a statement can hold the two
against each other. (A program image's length is checked where it is loaded, `Machine/Caller.lean`.)
-/

namespace Sys2Proof

/-- One row of R84's opcode map. -/
structure OpcodeRow where
  mnemonic : String
  mask : Word
  pattern : Word
deriving DecidableEq, Repr

/-- The rows of R84 that have no general-register operand (formats Z and A of R81). -/
def opcodeRowsAddress : List OpcodeRow := [
  ⟨"CLS", 0xFFFF, 0x00E0⟩, ⟨"RET", 0xFFFF, 0x00EE⟩,
  ⟨"JP_NNN", 0xF000, 0x1000⟩, ⟨"CALL_NNN", 0xF000, 0x2000⟩,
  ⟨"LD_I_NNN", 0xF000, 0xA000⟩, ⟨"JP_V0_NNN", 0xF000, 0xB000⟩]

/-- The rows of R84 with operands X and NN, and DXYN (formats XK and XYN of R81): the family selects. -/
def opcodeRowsFamily : List OpcodeRow := [
  ⟨"SE_VX_NN", 0xF000, 0x3000⟩, ⟨"SNE_VX_NN", 0xF000, 0x4000⟩, ⟨"LD_VX_NN", 0xF000, 0x6000⟩,
  ⟨"ADD_VX_NN", 0xF000, 0x7000⟩, ⟨"RND_VX_NN", 0xF000, 0xC000⟩, ⟨"DRW_VX_VY_N", 0xF000, 0xD000⟩]

/-- The rows of R84 with operands X and Y (format XY of R81): family and low nibble select. -/
def opcodeRowsNibble : List OpcodeRow := [
  ⟨"SE_VX_VY", 0xF00F, 0x5000⟩,
  ⟨"LD_VX_VY", 0xF00F, 0x8000⟩, ⟨"OR_VX_VY", 0xF00F, 0x8001⟩, ⟨"AND_VX_VY", 0xF00F, 0x8002⟩,
  ⟨"XOR_VX_VY", 0xF00F, 0x8003⟩, ⟨"ADD_VX_VY", 0xF00F, 0x8004⟩, ⟨"SUB_VX_VY", 0xF00F, 0x8005⟩,
  ⟨"SHR_VX", 0xF00F, 0x8006⟩, ⟨"SUBN_VX_VY", 0xF00F, 0x8007⟩, ⟨"SHL_VX", 0xF00F, 0x800E⟩,
  ⟨"SNE_VX_VY", 0xF00F, 0x9000⟩]

/-- The rows of R84 with operand X alone (format X of R81): family and low byte select. -/
def opcodeRowsByte : List OpcodeRow := [
  ⟨"SKP_VX", 0xF0FF, 0xE09E⟩, ⟨"SKNP_VX", 0xF0FF, 0xE0A1⟩,
  ⟨"LD_VX_DT", 0xF0FF, 0xF007⟩, ⟨"LD_VX_K", 0xF0FF, 0xF00A⟩, ⟨"LD_DT_VX", 0xF0FF, 0xF015⟩,
  ⟨"LD_ST_VX", 0xF0FF, 0xF018⟩, ⟨"ADD_I_VX", 0xF0FF, 0xF01E⟩, ⟨"LD_F_VX", 0xF0FF, 0xF029⟩,
  ⟨"LD_B_VX", 0xF0FF, 0xF033⟩, ⟨"LD_MI_VX", 0xF0FF, 0xF055⟩, ⟨"LD_VX_MI", 0xF0FF, 0xF065⟩]

/-- The opcode map of R84: 34 rows. -/
def opcodeRows : List OpcodeRow :=
  opcodeRowsAddress ++ opcodeRowsFamily ++ opcodeRowsNibble ++ opcodeRowsByte

/-- `(op AND mask) = match` (R83). -/
def OpcodeRow.matchesWord (r : OpcodeRow) (w : Word) : Bool := (w &&& r.mask) == r.pattern

/-- A word is well formed (recognized) exactly when some row of the map matches it (R83, R86). -/
def wordWf (w : Word) : Bool := opcodeRows.any (·.matchesWord w)

end Sys2Proof
end

