-- ==== Sys2Proof/Decode.lean ====
section
/-!
DEFINITION. The decoder and, after it, the encoder (`30_encoding.md` R80 to R91). Decoding is total on words and on
bytes and rejects by name; it depends on the word alone (R83).
-/

namespace Sys2Proof

/-- Why bytes do not decode. -/
inductive DecodeError where
  /-- The word matches no row of R84 (R86). Safe: the machine reports `UnknownOpcode` (R221). -/
  | unrecognized (w : Word)
  /-- Fewer than the two bytes every instruction has (R80). Never met by the fetch, which reads two (R103). -/
  | truncated
deriving DecidableEq, Repr

/-- The word of two bytes: the byte at the lower address is the high one (R52). -/
def wordOfBytes (hi lo : Byte) : Word := hi ++ lo

/-- A word as memory holds it: high byte first (R52). -/
def wordBytes (w : Word) : List Byte := [w.extractLsb' 8 8, w.extractLsb' 0 8]

/-! ### Fields (R81) -/

/-- `op[15:12]` -/
def fieldFamily (w : Word) : Nat := (w.extractLsb' 12 4).toNat

/-- X: `op[11:8]` -/
def fieldX (w : Word) : Reg := ⟨(w.extractLsb' 8 4).toNat, (w.extractLsb' 8 4).isLt⟩

/-- Y: `op[7:4]` -/
def fieldY (w : Word) : Reg := ⟨(w.extractLsb' 4 4).toNat, (w.extractLsb' 4 4).isLt⟩

/-- N: `op[3:0]` -/
def fieldN (w : Word) : Nib := ⟨(w.extractLsb' 0 4).toNat, (w.extractLsb' 0 4).isLt⟩

/-- NN: `op[7:0]` -/
def fieldNN (w : Word) : Byte := w.extractLsb' 0 8

/-- NNN: `op[11:0]` -/
def fieldNNN (w : Word) : Addr12 := w.extractLsb' 0 12

/-! ### Decoding (R83 to R88) -/

/-- Family 0: the whole word selects (R85, R87). -/
def decodeFamily0 (w : Word) : Option Instr :=
  if w = 0x00E0 then some .cls else if w = 0x00EE then some .ret else none

/-- Family 5: N must be 0 (R85, R88). -/
def decodeFamily5 (w : Word) : Option Instr :=
  if (fieldN w).val = 0 then some (.seVxVy (fieldX w) (fieldY w)) else none

/-- Family 8: N selects (R85). -/
def decodeFamily8 (w : Word) : Option Instr :=
  match (fieldN w).val with
  | 0x0 => some (.ldVxVy (fieldX w) (fieldY w))
  | 0x1 => some (.orVxVy (fieldX w) (fieldY w))
  | 0x2 => some (.andVxVy (fieldX w) (fieldY w))
  | 0x3 => some (.xorVxVy (fieldX w) (fieldY w))
  | 0x4 => some (.addVxVy (fieldX w) (fieldY w))
  | 0x5 => some (.subVxVy (fieldX w) (fieldY w))
  | 0x6 => some (.shrVx (fieldX w) (fieldY w))
  | 0x7 => some (.subnVxVy (fieldX w) (fieldY w))
  | 0xE => some (.shlVx (fieldX w) (fieldY w))
  | _ => none

/-- Family 9: N must be 0 (R85, R88). -/
def decodeFamily9 (w : Word) : Option Instr :=
  if (fieldN w).val = 0 then some (.sneVxVy (fieldX w) (fieldY w)) else none

/-- Family E: NN selects (R85). -/
def decodeFamilyE (w : Word) : Option Instr :=
  match (fieldNN w).toNat with
  | 0x9E => some (.skpVx (fieldX w))
  | 0xA1 => some (.sknpVx (fieldX w))
  | _ => none

/-- Family F: NN selects (R85). -/
def decodeFamilyF (w : Word) : Option Instr :=
  match (fieldNN w).toNat with
  | 0x07 => some (.ldVxDt (fieldX w))
  | 0x0A => some (.ldVxK (fieldX w))
  | 0x15 => some (.ldDtVx (fieldX w))
  | 0x18 => some (.ldStVx (fieldX w))
  | 0x1E => some (.addIVx (fieldX w))
  | 0x29 => some (.ldFVx (fieldX w))
  | 0x33 => some (.ldBVx (fieldX w))
  | 0x55 => some (.ldMiVx (fieldX w))
  | 0x65 => some (.ldVxMi (fieldX w))
  | _ => none

/-- R83: the opcode family first, then the family's sub-selector. `none` is R83's `Unknown`. -/
def decodeWord (w : Word) : Option Instr :=
  match fieldFamily w with
  | 0x0 => decodeFamily0 w
  | 0x1 => some (.jpNnn (fieldNNN w))
  | 0x2 => some (.callNnn (fieldNNN w))
  | 0x3 => some (.seVxNn (fieldX w) (fieldNN w))
  | 0x4 => some (.sneVxNn (fieldX w) (fieldNN w))
  | 0x5 => decodeFamily5 w
  | 0x6 => some (.ldVxNn (fieldX w) (fieldNN w))
  | 0x7 => some (.addVxNn (fieldX w) (fieldNN w))
  | 0x8 => decodeFamily8 w
  | 0x9 => decodeFamily9 w
  | 0xA => some (.ldINnn (fieldNNN w))
  | 0xB => some (.jpV0Nnn (fieldNNN w))
  | 0xC => some (.rndVxNn (fieldX w) (fieldNN w))
  | 0xD => some (.drwVxVyN (fieldX w) (fieldY w) (fieldN w))
  | 0xE => decodeFamilyE w
  | 0xF => decodeFamilyF w
  | _ => none

/-- Decode the instruction at the front of a byte stream (R52, R80). -/
def decode : List Byte → Except DecodeError Instr
  | hi :: lo :: _ =>
    match decodeWord (wordOfBytes hi lo) with
    | some i => .ok i
    | none => .error (.unrecognized (wordOfBytes hi lo))
  | _ => .error .truncated

/-- The decoder on a row of `spec/opcode_table.json`: the low `nbits` bits of `w` are the instruction's one word, bit 0
its least significant bit; it is laid out as memory holds it and decoded. -/
def decodeTableWord (nbits w : Nat) : Option Instr :=
  match decode (wordBytes (BitVec.ofNat 16 (w % 2 ^ nbits))) with
  | .ok i => some i
  | .error _ => none

/-! ### Encoding (R81's layouts, R84's patterns) -/

/-- A register number as a field. -/
def regBits (r : Fin 16) : BitVec 4 := BitVec.ofNat 4 r.val

/-- Format A: `ffff aaaa aaaa aaaa`. -/
def layoutA (f : BitVec 4) (nnn : Addr12) : Word := f ++ nnn

/-- Format XK: `ffff xxxx kkkk kkkk`; with fixed low byte, format X: `ffff xxxx ssss ssss`. -/
def layoutXK (f : BitVec 4) (x : Reg) (kk : Byte) : Word := f ++ regBits x ++ kk

/-- Format XY: `ffff xxxx yyyy ssss`; with N as the low nibble, format XYN. -/
def layoutXY (f : BitVec 4) (x y : Reg) (s : BitVec 4) : Word := f ++ regBits x ++ regBits y ++ s

/-- The word of an instruction (R81, R84). -/
def encode : Instr → Word
  | .cls => 0x00E0
  | .ret => 0x00EE
  | .jpNnn nnn => layoutA 0x1 nnn
  | .callNnn nnn => layoutA 0x2 nnn
  | .seVxNn x nn => layoutXK 0x3 x nn
  | .sneVxNn x nn => layoutXK 0x4 x nn
  | .seVxVy x y => layoutXY 0x5 x y 0x0
  | .ldVxNn x nn => layoutXK 0x6 x nn
  | .addVxNn x nn => layoutXK 0x7 x nn
  | .ldVxVy x y => layoutXY 0x8 x y 0x0
  | .orVxVy x y => layoutXY 0x8 x y 0x1
  | .andVxVy x y => layoutXY 0x8 x y 0x2
  | .xorVxVy x y => layoutXY 0x8 x y 0x3
  | .addVxVy x y => layoutXY 0x8 x y 0x4
  | .subVxVy x y => layoutXY 0x8 x y 0x5
  | .shrVx x y => layoutXY 0x8 x y 0x6
  | .subnVxVy x y => layoutXY 0x8 x y 0x7
  | .shlVx x y => layoutXY 0x8 x y 0xE
  | .sneVxVy x y => layoutXY 0x9 x y 0x0
  | .ldINnn nnn => layoutA 0xA nnn
  | .jpV0Nnn nnn => layoutA 0xB nnn
  | .rndVxNn x nn => layoutXK 0xC x nn
  | .drwVxVyN x y n => layoutXY 0xD x y (regBits n)
  | .skpVx x => layoutXK 0xE x 0x9E
  | .sknpVx x => layoutXK 0xE x 0xA1
  | .ldVxDt x => layoutXK 0xF x 0x07
  | .ldVxK x => layoutXK 0xF x 0x0A
  | .ldDtVx x => layoutXK 0xF x 0x15
  | .ldStVx x => layoutXK 0xF x 0x18
  | .addIVx x => layoutXK 0xF x 0x1E
  | .ldFVx x => layoutXK 0xF x 0x29
  | .ldBVx x => layoutXK 0xF x 0x33
  | .ldMiVx x => layoutXK 0xF x 0x55
  | .ldVxMi x => layoutXK 0xF x 0x65

/-- An instruction as memory holds it (R52, R80). -/
def encodeBytes (i : Instr) : List Byte := wordBytes (encode i)

end Sys2Proof
end

