-- ==== Sys2Proof/Machine/Flags.lean ====
section
/-!
DEFINITION. Every value the machine writes to VF as a flag (`10_state.md` R22; `43_alu.md` R157 to R161, R163, R165), from the
operand values read before the flag is written. (The sixth flag, DXYN's collision, is `collides` in `Machine/Ops.lean`.)
-/

namespace Sys2Proof.Machine

/-- A flag as the byte VF receives: 1 or 0. -/
def flagByte (b : Bool) : Byte := if b then 1 else 0

/-- 8XY4: the sum, taken as a 9-bit number, exceeds 255 (R157). -/
def carryOut (a b : Byte) : Bool := decide (a.toNat + b.toNat > 255)

/-- 8XY5 tests `VX ≥ VY`, 8XY7 `VY ≥ VX`: no borrow in `a - b`, equality included (R158, R160, R165). -/
def noBorrow (a b : Byte) : Bool := decide (b.toNat ≤ a.toNat)

/-- 8XY6: bit 0 before the shift (R159). -/
def shiftedOutRight (a : Byte) : Bool := a.getLsbD 0

/-- 8XYE: bit 7 before the shift (R161). -/
def shiftedOutLeft (a : Byte) : Bool := a.getLsbD 7

end Sys2Proof.Machine
end

