-- ==== Sys2Proof/Machine/Font.lean ====
section
/-!
DEFINITION. The parameter `FONT_TABLE` (`00_scope.md` R8; `70_reset_and_hazards.md` R263): its type, and the default the spec
gives for it. The machine takes the table as an argument (`State.resetWith`), and every statement over all states holds for every table; the
default is the argument of `State.reset` only (log 1).
-/

namespace Sys2Proof.Machine

/-- A value of the parameter `FONT_TABLE`: 16 glyphs of 5 bytes, glyph g at bytes 5g to 5g + 4 (R263). -/
abbrev FontTable := Vector Byte Config.fontBytes

/-- The default table, glyphs 0 to 7. PRESUMED (the spec: "from general knowledge, not in source"), log 1: unsafe for a
claim that rests on these bytes, which must name the table as a hypothesis (R263). -/
def defaultFontLow : List Byte := [
  0xF0, 0x90, 0x90, 0x90, 0xF0,  0x20, 0x60, 0x20, 0x20, 0x70,
  0xF0, 0x10, 0xF0, 0x80, 0xF0,  0xF0, 0x10, 0xF0, 0x10, 0xF0,
  0x90, 0x90, 0xF0, 0x10, 0x10,  0xF0, 0x80, 0xF0, 0x10, 0xF0,
  0xF0, 0x80, 0xF0, 0x90, 0xF0,  0xF0, 0x10, 0x20, 0x40, 0x40]

/-- The default table, glyphs 8 to F (PRESUMED, log 1). -/
def defaultFontHigh : List Byte := [
  0xF0, 0x90, 0xF0, 0x90, 0xF0,  0xF0, 0x90, 0xF0, 0x10, 0xF0,
  0xF0, 0x90, 0xF0, 0x90, 0x90,  0xE0, 0x90, 0xE0, 0x90, 0xE0,
  0xF0, 0x80, 0x80, 0x80, 0xF0,  0xE0, 0x90, 0x90, 0x90, 0xE0,
  0xF0, 0x80, 0xF0, 0x80, 0xF0,  0xF0, 0x80, 0xF0, 0x80, 0x80]

/-- The default value of `FONT_TABLE` (R263, D14; PRESUMED, log 1). -/
def defaultFontTable : FontTable := ⟨(defaultFontLow ++ defaultFontHigh).toArray, rfl⟩

end Sys2Proof.Machine
end

