-- ==== Sys2Proof/Machine/State.lean ====
section
/-!
DEFINITION. The state of the machine as plain data: the list of `10_state.md` R20, element by element, and the one
field of the model's own (`draws`), with the parameter `FONT_TABLE` held as data in `mem`. `INVENTORY.md` lists every element with its rule and its reset value.
-/

namespace Sys2Proof.Machine

/-- `MEM` (R33, R50; log 4), as the cells that differ from what `reset` leaves there. The canonical form, in which equal contents are
equal data, is `Memory.wf` (`Machine/Memory.lean`). -/
structure Memory where
  /-- The parameter `FONT_TABLE` of this machine (R8, R263): no state of the spec's but an argument, fixed for a run. `reset` copies it to
  addresses 0 to 79, so an unlisted address there reads as the table's byte (`Memory.unlisted`). No operation changes it. -/
  font : FontTable
  /-- The cells that differ from `Memory.unlisted`, by rising address. -/
  cells : List Host.Cell
deriving DecidableEq, Repr

/-- `FB` (R30): 32 rows of 64 cells, each 0 or 1. Reached by (x, y) only, through `fbGet` and `fbFlip` (log 17). -/
abbrev Framebuffer := Vector (Vector Bool 64) 32

/-- Everything R20 gives the core. R20: nothing else is state. -/
structure State where
  /-- `V[0..15]` (R21); VF is `v[15]`, the only flag (R22). -/
  v : Vector Byte 16
  /-- `I`, the index register (R23). -/
  i : Word
  /-- `PC` (R24). -/
  pc : Word
  /-- `STACK[0..15]` (R27). -/
  stack : Vector Word 16
  /-- `SP`, the number of call-stack entries in use, in [0, 16] (R27, R28, D19). -/
  sp : Fin 17
  /-- `DT`, the delay timer (R29). -/
  dt : Byte
  /-- `ST`, the sound timer (R29). -/
  st : Byte
  /-- `FB` (R30). -/
  fb : Framebuffer
  /-- `DRAW`, the redraw flag (R31). -/
  draw : Bool
  /-- `KEY[0..15]` (R32); `true` is pressed. -/
  key : Vector Bool 16
  /-- `MEM` (R33). -/
  mem : Memory
  /-- `OPCODE`, the word most recently fetched (R34). -/
  opcode : Word
  /-- The MODEL's own field, not the spec's: how many free values (R166, R203) have been drawn so far. No statement
  rests on its value (log 2). -/
  draws : Nat
deriving DecidableEq, Repr

/-- Why a step stops. All are R220's events of `step`; the state before the step stands, but for `OPCODE`
(R107, R109; `Machine/Cycle.lean`). -/
inductive Fault where
  /-- `UnknownOpcode(op, pc)` (R221): the fetched word is unrecognized. Raised by the decode phase of `step` only. The
  source states this failure; for 5XYn and 9XYn with n ≠ 0 it is the spec's reading (D16). Safe. -/
  | unknownOpcode (op pc : Word)
  /-- `Undefined(StackOverflow)` (R133, R223, D2): 2NNN with `SP = 16`. Safe. -/
  | stackOverflow
  /-- `Undefined(StackUnderflow)` (R131, R223, D3): 00EE with `SP = 0`. Safe. -/
  | stackUnderflow
  /-- `Undefined(FramebufferOutOfRange)` (R123, R223, D4): DXYN with a set sprite bit off the 64 × 32 grid. Safe. -/
  | framebufferOutOfRange
  /-- `Undefined(MemoryOutOfRange)` (R56, R102, R223, D5): the fetch with PC above 4094, or DXYN, FX33, FX55 or FX65
  with an accessed address above 4095. Safe. -/
  | memoryOutOfRange
  /-- `Undefined(KeyIndexOutOfRange)` (R200, R223, D6): EX9E or EXA1 with VX above 15. Safe. -/
  | keyIndexOutOfRange
deriving DecidableEq, Repr

/-- Why the model declines. -/
inductive Refusal where
  /-- The instruction has no meaning yet. Raised by no arm of `exec`: every instruction has its meaning. Safe. -/
  | notModelled (mnemonic : String)
  /-- R260, D18: an operation other than `reset` on a machine that was never reset. Raised by `callerDo` only
  (`Machine/Caller.lean`), never by `step`. Safe. -/
  | beforeReset
deriving DecidableEq, Repr

/-- R37, R261: every element as `reset` leaves it, for the `FONT_TABLE` given (R8). Memory has nothing listed: an unlisted address
reads as `reset` leaves it, the font table below 80 and 0 from there on. `draws` starts at 0 (DESIGN CHOICE, log 2). -/
def State.resetWith (font : FontTable) : State where
  v := Vector.replicate 16 0
  i := 0
  pc := 0x200
  stack := Vector.replicate 16 0
  sp := 0
  dt := 0
  st := 0
  fb := Vector.replicate 32 (Vector.replicate 64 false)
  draw := true
  key := Vector.replicate 16 false
  mem := ⟨font, []⟩
  opcode := 0
  draws := 0

/-- The machine right after `reset`, with the spec's default for `FONT_TABLE` as the argument (R263, D14; log 1). -/
def State.reset : State := State.resetWith defaultFontTable

end Sys2Proof.Machine
end

