-- ==== Sys2Proof/Machine/Memory.lean ====
section
/-!
DEFINITION. Memory as a canonical list of cells (`20_memory.md` R50 to R56). Addresses are natural numbers and are never
wrapped (R56); the range check is `blockInMemory`, made by an instruction before any access (R109).
-/

namespace Sys2Proof.Machine

/-- What an address that nothing has written reads as, in a machine with this font table: the memory `reset` leaves, that is the
table at [0, 80) and 0 elsewhere (R37, R261, R263). -/
def Memory.unlisted (font : FontTable) (a : Nat) : Byte :=
  if h : a < Config.fontBytes then font[a] else 0

/-- The byte at `a` in a list of cells over the reset contents. -/
def readCells (font : FontTable) (a : Nat) : List Host.Cell → Byte
  | [] => Memory.unlisted font a
  | (b, w) :: rest => if b = a then w else readCells font a rest

/-- Put a cell before the first cell of a higher address. -/
def insertCell (c : Host.Cell) : List Host.Cell → List Host.Cell
  | [] => [c]
  | d :: rest => if c.1 < d.1 then c :: d :: rest else d :: insertCell c rest

/-- The cells without those at `a`, so that `a` reads as `reset` left it. -/
def dropCell (a : Nat) (cells : List Host.Cell) : List Host.Cell := cells.filter (fun c => c.1 != a)

/-- The canonical form of a list of cells: addresses strictly rising, each in [0, 4095] (R50), and no cell equal to what an
unlisted address reads as. -/
def cellsWf (font : FontTable) : List Host.Cell → Bool
  | [] => true
  | c :: rest =>
    decide (c.1 < Config.memSize) && c.2 != Memory.unlisted font c.1 && rest.all (fun d => decide (c.1 < d.1))
      && cellsWf font rest

/-- `MemRead(a, 1)` for an address in range (R11, R55). -/
def Memory.read (m : Memory) (a : Nat) : Byte := readCells m.font a m.cells

/-- `MemWrite(a, 1, v)` for an address in range (R11, R55), keeping the canonical form. -/
def Memory.write (m : Memory) (a : Nat) (v : Byte) : Memory :=
  { m with
    cells := if v = Memory.unlisted m.font a then dropCell a m.cells else insertCell (a, v) (dropCell a m.cells) }

/-- Memory is in its canonical form. -/
def Memory.wf (m : Memory) : Bool := cellsWf m.font m.cells

/-- `count` bytes from `base` on, in ascending address order (R53). -/
def Memory.readBlock (m : Memory) (base : Nat) : Nat → List Byte
  | 0 => []
  | count + 1 => Memory.read m base :: Memory.readBlock m (base + 1) count

/-- Store bytes from `base` on, in ascending address order (R53, R188). -/
def Memory.writeBlock (m : Memory) (base : Nat) : List Byte → Memory
  | [] => m
  | b :: bs => Memory.writeBlock (Memory.write m base b) (base + 1) bs

/-- R56: the addresses `base` to `base + count - 1` all exist; for `count = 0` vacuously when `base` does not pass
the end. -/
def blockInMemory (base count : Nat) : Bool := decide (base + count ≤ Config.memSize)

end Sys2Proof.Machine
end

