-- ==== Sys2Proof/Machine/Ops.lean ====
section
/-!
DEFINITION. The named operations over the state that the meanings share (`00_scope.md` R11, `10_state.md` R20 to R34). The
machine has no trap entry and no return from one (`60_exceptions.md` R225, R228): an abnormal event is the outcome of the
step, `raise`; nothing is saved and control goes nowhere.
-/

namespace Sys2Proof.Machine

/-- R11 `raise`: the step ends with a fault (R223, R225). -/
def raise (r : Fault) : Host.Outcome State Fault Refusal := .fault r

/-! ### Registers (R21 to R24) -/

/-- `V[r]` (R11). No register is hardwired (R21). -/
def State.getV (s : State) (r : Reg) : Byte := s.v[r]

/-- `V[r] <- b` (R11). -/
def State.setV (s : State) (r : Reg) (b : Byte) : State := { s with v := s.v.set r b }

/-- `V[first], V[first + 1], …` loaded from consecutive bytes in order (R187). -/
def State.loadV (s : State) (first : Nat) : List Byte → State
  | [] => s
  | b :: bs => State.loadV (s.setV (Fin.ofNat 16 first) b) (first + 1) bs

/-- `V[0], …, V[x]` as a list (R186). -/
def State.blockV (s : State) (x : Reg) : List Byte :=
  (List.range (x.val + 1)).map (fun k => s.getV (Fin.ofNat 16 k))

/-- `I <- w` (R23). -/
def State.setI (s : State) (w : Word) : State := { s with i := w }

/-- `PC <- w` (R24); words are 16 bits, so PC arithmetic is mod 65536. -/
def State.setPc (s : State) (w : Word) : State := { s with pc := w }

/-- `PC <- PC + 2` (R25, R105). -/
def State.advance (s : State) : State := s.setPc (s.pc + 2)

/-- R130, R140: PC advances by 4 when the condition holds, else by 2. -/
def State.skipIf (s : State) (cond : Bool) : State := s.setPc (s.pc + if cond then 4 else 2)

/-! ### Call stack (R27) -/

/-- Store at `STACK[SP]`, then increment SP (R133). -/
def State.push (s : State) (w : Word) (h : s.sp.val < 16) : State :=
  { s with stack := s.stack.set s.sp.val w, sp := ⟨s.sp.val + 1, Nat.succ_lt_succ h⟩ }

/-- The slot `STACK[SP - 1]` that a return pops (R131). Read only when `SP ≠ 0`. -/
def State.top (s : State) : Word := s.stack[s.sp.val - 1]'(by have := s.sp.isLt; omega)

/-- Decrement SP, then zero the slot it now points at (R131). Done only when `SP ≠ 0`. -/
def State.pop (s : State) : State :=
  { s with
    stack := s.stack.set (s.sp.val - 1) 0 (by have := s.sp.isLt; omega)
    sp := ⟨s.sp.val - 1, by have := s.sp.isLt; omega⟩ }

/-! ### Timers, display, memory, latch, keys -/

/-- `DT <- b` (R29). -/
def State.setDt (s : State) (b : Byte) : State := { s with dt := b }

/-- `ST <- b` (R29). -/
def State.setSt (s : State) (b : Byte) : State := { s with st := b }

/-- Replace the framebuffer (R30). -/
def State.setFb (s : State) (fb : Framebuffer) : State := { s with fb := fb }

/-- `DRAW <- b` (R31). -/
def State.setDraw (s : State) (b : Bool) : State := { s with draw := b }

/-- Replace memory (R33). -/
def State.setMem (s : State) (m : Memory) : State := { s with mem := m }

/-- `OPCODE <- w` (R34, R103). -/
def State.setOpcode (s : State) (w : Word) : State := { s with opcode := w }

/-- `KEY[k] <- b` (R32, R267). -/
def State.setKey (s : State) (k : Key) (b : Bool) : State := { s with key := s.key.set k b }

/-- One free value has been used (the model's own field, log 2). -/
def State.nextDraw (s : State) : State := { s with draws := s.draws + 1 }

/-! ### Framebuffer cells (R30, R122) -/

/-- `FB[x, y]`; `false` off the grid, where no instruction reads it. -/
def fbGet (fb : Framebuffer) (x y : Nat) : Bool :=
  if h : x < 64 ∧ y < 32 then (fb[y]'h.2)[x]'h.1 else false

/-- `FB[x, y] <- FB[x, y] XOR 1`; nothing off the grid, where no instruction writes it. -/
def fbFlip (fb : Framebuffer) (x y : Nat) : Framebuffer :=
  if h : x < 64 ∧ y < 32 then fb.set y ((fb[y]'h.2).set x (!(fb[y]'h.2)[x]'h.1) h.1) h.2 else fb

/-- All cells 0 (R120). -/
def fbClear : Framebuffer := Vector.replicate 32 (Vector.replicate 64 false)

/-- The cell exists (R123). -/
def onScreen (c : Nat × Nat) : Bool := decide (c.1 < Config.fbWidth) && decide (c.2 < Config.fbHeight)

/-- XOR each listed cell with 1, in order (R122). -/
def flipCells (fb : Framebuffer) : List (Nat × Nat) → Framebuffer
  | [] => fb
  | c :: cs => flipCells (fbFlip fb c.1 c.2) cs

/-- Some listed cell is set, so that its XOR turns it off (R122). Each cell is the target of at most one bit of one DXYN, so
the test on the cells before drawing is the test made while drawing. -/
def collides (fb : Framebuffer) (cells : List (Nat × Nat)) : Bool := cells.any (fun c => fbGet fb c.1 c.2)

/-! ### Free values (R166, R203) -/

/-- `draw8()` (R166): the random byte of this CXNN, a free value. -/
def State.draw8 (s : State) : Byte := Config.randomByte s.draws

/-- The pressed keys in rising order: the set S of R204. -/
def State.pressedKeys (s : State) : List Key := (List.finRange 16).filter (fun k => s.key[k])

/-- `choose(S)` (R203): nothing when no key is down, the key when one is, any one of them when several are. The
second component says whether a free value was used. -/
def chooseKey (draw : Nat) : List Key → Option (Key × Bool)
  | [] => none
  | [k] => some (k, false)
  | k :: ks => some ((k :: ks).getD (draw % (k :: ks).length) k, true)

/-! ### Fetch (R52, R103) -/

/-- `MEM[PC]` and `MEM[PC + 1]`, in address order (R103). -/
def fetchBytes (s : State) : List Byte :=
  [Memory.read s.mem s.pc.toNat, Memory.read s.mem (s.pc.toNat + 1)]

/-- `op`: the word at PC, big-endian (R52, R103). -/
def fetchWord (s : State) : Word :=
  Memory.read s.mem s.pc.toNat ++ Memory.read s.mem (s.pc.toNat + 1)

/-- R102: both bytes of the fetch exist, that is PC is at most 4094. -/
def fetchInRange (s : State) : Bool := blockInMemory s.pc.toNat 2

end Sys2Proof.Machine
end

