-- ==== Sys2Proof/Machine/Operands.lean ====
section
/-!
DEFINITION. Every operand form of the instruction set: jump targets (R82, R135), the addressing mode "register indirect
through I" (R180), sprite geometry (R121), glyph addresses (R183), decimal digits (R185), key numbers (R200).
-/

namespace Sys2Proof.Machine

/-- NNN as a 16-bit value: `zext_16(NNN)` (R82). -/
def targetNnn (nnn : Addr12) : Word := nnn.zeroExtend 16

/-- BNNN's target: `(zext_16(NNN) + zext_16(V0)) mod 65536` (R135). -/
def targetV0 (nnn : Addr12) (s : State) : Word := nnn.zeroExtend 16 + (s.getV 0).zeroExtend 16

/-- The effective address of byte 0: the natural number I (R180). -/
def baseAddr (s : State) : Nat := s.i.toNat

/-- `VX` as a 16-bit addend: `zext_16(V[X])` (R182). -/
def offsetVx (x : Reg) (s : State) : Word := (s.getV x).zeroExtend 16

/-- `GLYPH_STRIDE` (R7): bytes per glyph. -/
def glyphStride : Word := 5

/-- FX29's address: `zext_16(V[X]) × 5`, of the whole of VX (R183). -/
def glyphAddr (x : Reg) (s : State) : Word := (s.getV x).zeroExtend 16 * glyphStride

/-! ### Register blocks and digits (R185 to R187) -/

/-- FX55 and FX65 transfer X + 1 bytes (R186, R187). -/
def blockLength (x : Reg) : Nat := x.val + 1

/-- Hundreds, tens and ones of a byte, one digit a byte (R185). -/
def bcdDigits (b : Byte) : List Byte :=
  [BitVec.ofNat 8 (b.toNat / 100), BitVec.ofNat 8 (b.toNat / 10 % 10), BitVec.ofNat 8 (b.toNat % 10)]

/-! ### Keys (R200) -/

/-- The key number in VX is that of an existing key: `VX ≤ 15`, the whole byte (R200). -/
def keyExists (x : Reg) (s : State) : Bool := decide ((s.getV x).toNat < Config.numKeys)

/-- `KEY[VX]`, for a VX that names a key (R201, R202). -/
def keyAt (x : Reg) (s : State) : Bool := s.key[(s.getV x).toNat % 16]'(Nat.mod_lt _ (by decide))

/-! ### Sprites (R121) -/

/-- `SPRITE_ROW_BIAS` (R7, C2, D22; log 7): DXYN draws N + 1 rows. -/
def spriteRowBias : Nat := 1

/-- The number of rows DXYN draws, one byte each from I on (R121). -/
def spriteRows (n : Nib) : Nat := n.val + spriteRowBias

/-- The bit of a sprite byte that goes to column `VX + c`: bit 7 - c (R121, D11; PRESUMED by the spec, log 5). -/
def spriteBit (b : Byte) (c : Nat) : Bool := b.getLsbD (7 - c)

/-- The target cells of the set bits of one sprite row, left to right (R121, R122). -/
def rowCells (x0 y : Nat) (b : Byte) : List (Nat × Nat) :=
  ((List.range 8).filter (fun c => spriteBit b c)).map (fun c => (x0 + c, y))

/-- The target cells of all set bits of a sprite whose first bit goes to (x0, y0): row k of the sprite goes to row
`y0 + k` (R121). Start coordinates are not reduced (R123). -/
def spriteCells (x0 y0 : Nat) : List Byte → List (Nat × Nat)
  | [] => []
  | b :: bs => rowCells x0 y0 b ++ spriteCells x0 (y0 + 1) bs

/-- The cells a DXYN in this state would flip: VX is the column, VY the row, the bytes are `MEM[I .. I + N]` (R121, R122).
All are read before any write (R126). -/
def drawTargets (x y : Reg) (n : Nib) (s : State) : List (Nat × Nat) :=
  spriteCells (s.getV x).toNat (s.getV y).toNat (Memory.readBlock s.mem (baseAddr s) (spriteRows n))

end Sys2Proof.Machine
end

