-- ==== Sys2Proof/Machine/Alu.lean ====
section
/-!
DEFINITION. Register and ALU instructions: 6XNN, 7XNN, 8XY0 to 8XYE, CXNN (`43_alu.md` R150 to R166). The flag-writing rows
are read sequentially (R110, D9; log 8): VF first, then the result from the registers as they then stand.
-/

namespace Sys2Proof.Machine

/-- R110's shape of 8XY4, 8XY5, 8XY6, 8XY7 and 8XYE: write the flag to VF, then the result to VX, computed from the state
after the flag write, then `PC + 2`. -/
def flagThenResult (x : Reg) (flag : Bool) (result : State → Byte) (s : State) : State :=
  ((s.setV regF (flagByte flag)).setV x (result (s.setV regF (flagByte flag)))).advance

/-- 6XNN (R151). -/
def execLdVxNn (x : Reg) (nn : Byte) (s : State) : Host.Outcome State Fault Refusal :=
  .next (s.setV x nn).advance

/-- 7XNN (R152): mod 256, VF untouched. -/
def execAddVxNn (x : Reg) (nn : Byte) (s : State) : Host.Outcome State Fault Refusal :=
  .next (s.setV x (s.getV x + nn)).advance

/-- 8XY0 (R153). -/
def execLdVxVy (x y : Reg) (s : State) : Host.Outcome State Fault Refusal :=
  .next (s.setV x (s.getV y)).advance

/-- 8XY1 (R154): VF untouched. -/
def execOrVxVy (x y : Reg) (s : State) : Host.Outcome State Fault Refusal :=
  .next (s.setV x (s.getV x ||| s.getV y)).advance

/-- 8XY2 (R155): VF untouched. -/
def execAndVxVy (x y : Reg) (s : State) : Host.Outcome State Fault Refusal :=
  .next (s.setV x (s.getV x &&& s.getV y)).advance

/-- 8XY3 (R156): VF untouched. -/
def execXorVxVy (x y : Reg) (s : State) : Host.Outcome State Fault Refusal :=
  .next (s.setV x (s.getV x ^^^ s.getV y)).advance

/-- 8XY4 (R157). -/
def execAddVxVy (x y : Reg) (s : State) : Host.Outcome State Fault Refusal :=
  .next (flagThenResult x (carryOut (s.getV x) (s.getV y)) (fun t => t.getV x + t.getV y) s)

/-- 8XY5 (R158). -/
def execSubVxVy (x y : Reg) (s : State) : Host.Outcome State Fault Refusal :=
  .next (flagThenResult x (noBorrow (s.getV x) (s.getV y)) (fun t => t.getV x - t.getV y) s)

/-- 8XY6 (R159): Y is ignored. -/
def execShrVx (x _y : Reg) (s : State) : Host.Outcome State Fault Refusal :=
  .next (flagThenResult x (shiftedOutRight (s.getV x)) (fun t => t.getV x >>> 1) s)

/-- 8XY7 (R160). -/
def execSubnVxVy (x y : Reg) (s : State) : Host.Outcome State Fault Refusal :=
  .next (flagThenResult x (noBorrow (s.getV y) (s.getV x)) (fun t => t.getV y - t.getV x) s)

/-- 8XYE (R161): Y is ignored. -/
def execShlVx (x _y : Reg) (s : State) : Host.Outcome State Fault Refusal :=
  .next (flagThenResult x (shiftedOutLeft (s.getV x)) (fun t => t.getV x <<< 1) s)

/-- CXNN (R162): the random byte is a free value (R166, log 2). -/
def execRndVxNn (x : Reg) (nn : Byte) (s : State) : Host.Outcome State Fault Refusal :=
  .next (s.setV x (s.draw8 &&& nn)).nextDraw.advance

end Sys2Proof.Machine
end

