-- ==== Sys2Proof/Machine/Display.lean ====
section
/-!
DEFINITION. 00E0 and DXYN (`41_display.md` R120 to R127).
-/

namespace Sys2Proof.Machine

/-- 00E0 (R120): all cells 0, redraw flag set whatever the cells were. -/
def execCls (s : State) : Host.Outcome State Fault Refusal :=
  .next ((s.setFb fbClear).setDraw true).advance

/-- DXYN (R122): the memory range is tested first, then the cells of the set bits (R108, R123); VF is written last, with 0
when nothing was turned off (D10; PRESUMED by the spec, log 6). -/
def execDrwVxVyN (x y : Reg) (n : Nib) (s : State) : Host.Outcome State Fault Refusal :=
  if blockInMemory (baseAddr s) (spriteRows n) then
    if (drawTargets x y n s).all onScreen then
      .next ((((s.setFb (flipCells s.fb (drawTargets x y n s))).setV regF
        (flagByte (collides s.fb (drawTargets x y n s)))).setDraw true).advance)
    else raise .framebufferOutOfRange
  else raise .memoryOutOfRange

end Sys2Proof.Machine
end

