-- ==== Sys2Proof/Machine/IndexMemory.lean ====
section
/-!
DEFINITION. Index register and memory transfer: ANNN, FX1E, FX29, FX33, FX55, FX65 (`44_index_memory.md` R180 to R188). The
transfers move all their bytes or none (R188) and leave I as it was (R180, D23; log 18).
-/

namespace Sys2Proof.Machine

/-- ANNN (R181). -/
def execLdINnn (nnn : Addr12) (s : State) : Host.Outcome State Fault Refusal :=
  .next (s.setI (targetNnn nnn)).advance

/-- FX1E (R182): mod 65536, VF untouched. -/
def execAddIVx (x : Reg) (s : State) : Host.Outcome State Fault Refusal :=
  .next (s.setI (s.i + offsetVx x s)).advance

/-- FX29 (R183). -/
def execLdFVx (x : Reg) (s : State) : Host.Outcome State Fault Refusal :=
  .next (s.setI (glyphAddr x s)).advance

/-- FX33 (R185): hundreds, tens, ones at I, I + 1, I + 2. -/
def execLdBVx (x : Reg) (s : State) : Host.Outcome State Fault Refusal :=
  if blockInMemory (baseAddr s) 3 then
    .next (s.setMem (Memory.writeBlock s.mem (baseAddr s) (bcdDigits (s.getV x)))).advance
  else raise .memoryOutOfRange

/-- FX55 (R186): V0 to VX at I to I + X. -/
def execLdMiVx (x : Reg) (s : State) : Host.Outcome State Fault Refusal :=
  if blockInMemory (baseAddr s) (blockLength x) then
    .next (s.setMem (Memory.writeBlock s.mem (baseAddr s) (s.blockV x))).advance
  else raise .memoryOutOfRange

/-- FX65 (R187): V0 to VX from I to I + X. -/
def execLdVxMi (x : Reg) (s : State) : Host.Outcome State Fault Refusal :=
  if blockInMemory (baseAddr s) (blockLength x) then
    .next (s.loadV 0 (Memory.readBlock s.mem (baseAddr s) (blockLength x))).advance
  else raise .memoryOutOfRange

end Sys2Proof.Machine
end

