-- ==== Sys2Proof/Machine/KeypadTimers.lean ====
section
/-!
DEFINITION. Keypad and timer instructions: EX9E, EXA1, FX0A, FX07, FX15, FX18 (`45_keypad_timers.md` R200 to R208). The tick that
follows every successful instruction is `tick` in `Machine/Cycle.lean` (R106).
-/

namespace Sys2Proof.Machine

/-- EX9E (R201): level sensitive; a VX above 15 names no key (R200). -/
def execSkpVx (x : Reg) (s : State) : Host.Outcome State Fault Refusal :=
  if keyExists x s then .next (s.skipIf (keyAt x s))
  else raise .keyIndexOutOfRange

/-- EXA1 (R202). -/
def execSknpVx (x : Reg) (s : State) : Host.Outcome State Fault Refusal :=
  if keyExists x s then .next (s.skipIf (!keyAt x s))
  else raise .keyIndexOutOfRange

/-- FX07 (R205): DT as the previous step left it. -/
def execLdVxDt (x : Reg) (s : State) : Host.Outcome State Fault Refusal :=
  .next (s.setV x s.dt).advance

/-- FX0A (R204): with no key down the step succeeds and changes nothing; otherwise VX receives the number of a pressed key, a
free choice when several are down (R203, log 3). -/
def execLdVxK (x : Reg) (s : State) : Host.Outcome State Fault Refusal :=
  match chooseKey (Config.keyPick s.draws) s.pressedKeys with
  | none => .next s
  | some (k, false) => .next (s.setV x (BitVec.ofNat 8 k.val)).advance
  | some (k, true) => .next (s.setV x (BitVec.ofNat 8 k.val)).nextDraw.advance

/-- FX15 (R206). -/
def execLdDtVx (x : Reg) (s : State) : Host.Outcome State Fault Refusal :=
  .next (s.setDt (s.getV x)).advance

/-- FX18 (R207). -/
def execLdStVx (x : Reg) (s : State) : Host.Outcome State Fault Refusal :=
  .next (s.setSt (s.getV x)).advance

end Sys2Proof.Machine
end

