-- ==== Sys2Proof/Machine/Cycle.lean ====
section
/-!
DEFINITION. One step: fetch, decode, execute, tick (`40_step_cycle.md` R100 to R112; `60_exceptions.md` R236, R237).
-/

namespace Sys2Proof.Machine

/-- What a step gives (R100): its outcome, the state it leaves whatever the outcome is, and the beep. -/
structure StepResult where
  /-- `Success` is `next`; `Failure(UnknownOpcode)` and `Undefined(reason)` are `fault` (R220, log 9). -/
  outcome : Host.Outcome State Fault Refusal
  /-- The state after the step: on success the outcome's own, otherwise R107's or R109's (never a result of a run, R226). -/
  after : State
  /-- The buzzer edge, a one-bit output of the step and no state (R237, D28; log 20). -/
  beep : Bool

/-- A timer counts down by 1 and stays at 0 (R29, R236). -/
def countDown (t : Byte) : Byte := if t = 0 then 0 else t - 1

/-- The tick at the end of every successful step (R106, R236). -/
def tick (s : State) : State := (s.setDt (countDown s.dt)).setSt (countDown s.st)

/-- The tick finds `ST = 1` and takes it to 0 (R236, R237). -/
def tickBeeps (s : State) : Bool := s.st == 1

/-- A step that ends abnormally in state `s`: no tick, no beep (R107, R109; log 10). -/
def stepFailed (r : Fault) (s : State) : StepResult := ⟨.fault r, s, false⟩

/-- The end of a step whose execute phase gave `o`, started in `s` (after the fetch): the tick on success only (R106, R107, R109). -/
def finishStep (s : State) : Host.Outcome State Fault Refusal → StepResult
  | .next t => ⟨.next (tick t), tick t, tickBeeps t⟩
  | .fault r => stepFailed r s
  | .refused r => ⟨.refused r, s, false⟩

/-- R101: the phases of one step in order. The fetch-range test precedes the fetch and leaves even `OPCODE` (R102); the latch
is written at the fetch, of an unrecognized word too (R34, R103). -/
def cycle (s : State) : StepResult :=
  if fetchInRange s then
    match decode (fetchBytes s) with
    | .ok i => finishStep (s.setOpcode (fetchWord s)) (exec i (s.setOpcode (fetchWord s)))
    | .error _ => stepFailed (.unknownOpcode (fetchWord s) s.pc) (s.setOpcode (fetchWord s))
  else stepFailed .memoryOutOfRange s

/-- The state after a step, whatever its outcome (R100's third column). -/
def afterStep (s : State) : State := (cycle s).after

/-- The beep of the step taken in this state (R237). -/
def stepBeeps (s : State) : Bool := (cycle s).beep

/-- A word placed where the next fetch reads it, high byte first (R52, R103). Nothing changes when PC is above 4094, where
no fetch reads anything (R102). -/
def placeWord (s : State) (w : Word) : State :=
  if fetchInRange s then s.setMem (Memory.writeBlock s.mem s.pc.toNat (wordBytes w)) else s

end Sys2Proof.Machine
end

