-- ==== Sys2Proof/Machine/Step.lean ====
section
/-!
DEFINITION. The step as the host runs it: the outcome of `cycle` (`40_step_cycle.md` R100). A program comes to run from
`State.reset` by the caller's `loadProgram` (R265, log 22), or by `State.withFetchWord`, which stands for that load.
-/

namespace Sys2Proof.Machine

/-- One call of `step` (R100, R101). -/
def step (s : State) : Host.Outcome State Fault Refusal := (cycle s).outcome

/-- `s` with an instruction word stored where `step` fetches its next instruction; `w` holds it in its low `nbits` bits, bit 0
the least significant bit of the word (every instruction is one word, R80). -/
def State.withFetchWord (s : State) (nbits w : Nat) : State := placeWord s (BitVec.ofNat 16 (w % 2 ^ nbits))

end Sys2Proof.Machine
end

