-- ==== Sys2Proof/Machine/Caller.lean ====
section
/-!
DEFINITION. What the caller can do between steps (`70_reset_and_hazards.md` R260 to R269, the table of R266).
-/

namespace Sys2Proof.Machine

/-- `LOAD_LIMIT` (R7, C6): `loadProgram` fails from this length on. -/
def loadLimit : Nat := 3584

/-- The diagnostic snapshot (R40). "The top of the visible call stack" is left out, as R40 asks (log 28). -/
structure Snapshot where
  v : Vector Byte 16
  opcode : Word
  pc : Word
  i : Word
  sp : Fin 17
  dt : Byte
  st : Byte
deriving DecidableEq, Repr

/-- The caller's operations (R266). -/
inductive CallerOp where
  | reset
  | loadProgram (bytes : List Byte)
  | writeKey (k : Key) (pressed : Bool)
  | step
  | clearDraw
  | readFramebuffer
  | readDraw
  | readSnapshot
deriving DecidableEq, Repr

/-- What the caller gets back (R266). -/
inductive CallerReply where
  /-- `reset`, key writes and clearing the redraw flag return nothing and cannot fail. -/
  | done
  /-- `loadProgram` succeeded. -/
  | loaded
  /-- `Failure(ProgramTooLarge)`; it carries nothing (R220, N29). -/
  | programTooLarge
  /-- `step` succeeded, with its beep (R237). -/
  | stepped (beep : Bool)
  /-- `step` ended `Failure(UnknownOpcode)` or `Undefined(reason)`; its beep is 0 (R107, R109). -/
  | stepFault (r : Fault)
  /-- The model has no meaning for the instruction: never answered, since every instruction has one. -/
  | stepRefused (r : Refusal)
  | framebuffer (fb : Framebuffer)
  | drawFlag (b : Bool)
  | snapshot (s : Snapshot)
deriving DecidableEq, Repr

/-- `reset()` (R261): every element as R37 gives it, whatever the state was, with the machine's own font table (R8: fixed
for a run). The count of free values goes on, so that
nothing relates the draws before and after a reset (R166; log 2). -/
def resetOp (s : State) : State := { State.resetWith s.mem.font with draws := s.draws }

/-- `loadProgram(bytes)` (R264): memory only; nothing is copied when the image is too large (D17, log 14). -/
def loadProgram (bytes : List Byte) (s : State) : State × CallerReply :=
  if bytes.length < loadLimit then (s.setMem (Memory.writeBlock s.mem Config.progBase bytes), .loaded)
  else (s, .programTooLarge)

/-- The snapshot (R40). -/
def snapshotOf (s : State) : Snapshot := ⟨s.v, s.opcode, s.pc, s.i, s.sp, s.dt, s.st⟩

/-- What `step` tells the caller (R100, R266). -/
def stepReply (r : StepResult) : CallerReply :=
  match r.outcome with
  | .next _ => .stepped r.beep
  | .fault f => .stepFault f
  | .refused f => .stepRefused f

/-- An operation on a machine that has been reset (R266). Reads change nothing (R39). -/
def callerOp (op : CallerOp) (s : State) : State × CallerReply :=
  match op with
  | .reset => (resetOp s, .done)
  | .loadProgram bytes => loadProgram bytes s
  | .writeKey k b => (s.setKey k b, .done)
  | .step => (afterStep s, stepReply (cycle s))
  | .clearDraw => (s.setDraw false, .done)
  | .readFramebuffer => (s, .framebuffer s.fb)
  | .readDraw => (s, .drawFlag s.draw)
  | .readSnapshot => (s, .snapshot (snapshotOf s))

/-- An operation on a machine that may never have been reset, `none` (R260, D18; log 15): then only `reset` has a meaning. `font` is
the machine's `FONT_TABLE` (R8), used where there is no state yet to hold it. -/
def callerDo (font : FontTable) (op : CallerOp) : Option State → Except Refusal (State × CallerReply)
  | some s => .ok (callerOp op s)
  | none => if op = .reset then .ok (State.resetWith font, .done) else .error .beforeReset

end Sys2Proof.Machine
end

