-- ==== Sys2Proof/Safety.lean ====
section
/-!
DEFINITION. What claims are stated in terms of: the invariant of the machine, runs, and the end of a run.
-/

namespace Sys2Proof.Machine

/-- The invariant that every step and every operation of the caller keeps (R26, R27, R41, R50):
memory is in its canonical form, call-stack slots in use hold the address of a call that was fetched, slots not in use hold 0,
and PC is one of the values an instruction can leave. (SP in [0, 16], 8-bit registers and one-bit cells hold by type.) -/
structure State.Inv (s : State) : Prop where
  memCanonical : Memory.wf s.mem = true
  usedSlots : ∀ k : Fin 16, k.val < s.sp.val → s.stack[k].toNat ≤ 4094
  freeSlots : ∀ k : Fin 16, s.sp.val ≤ k.val → s.stack[k] = 0
  pcBound : s.pc.toNat ≤ 0x10FE

/-- `n` successful steps lead from `s` to `t`, and every instruction they execute satisfies `p` (with `p` always true, a plain
run). -/
def RunsTo (p : Instr → Prop) : Nat → State → State → Prop
  | 0, s, t => t = s
  | n + 1, s, t => ∃ i u, decode (fetchBytes s) = .ok i ∧ p i ∧ step s = .next u ∧ RunsTo p n u t

/-- No step of the first `n` from `s` fails or is undefined (R226, R276). -/
def SafeFor : Nat → State → Prop
  | 0, _ => True
  | n + 1, s => ∃ u, step s = .next u ∧ SafeFor n u

/-- R269: a run has ended normally when PC holds the address of a 1NNN whose NNN is that address. -/
def EndedNormally (s : State) : Prop :=
  ∃ nnn : Addr12, fetchInRange s = true ∧ decode (fetchBytes s) = .ok (.jpNnn nnn) ∧ targetNnn nnn = s.pc

/-! ### Frames: which elements a change leaves alone -/

/-- The elements of the state, one by one: registers, stack slots, cells, keys and addresses singly. (`font` is the
machine's parameter `FONT_TABLE`, which nothing changes; `draws` is the model's own count.) -/
inductive Elem where
  | v (r : Reg)
  | i
  | pc
  | stack (k : Fin 16)
  | sp
  | dt
  | st
  | fb (x y : Nat)
  | draw
  | key (k : Key)
  | mem (a : Nat)
  | font
  | opcode
  | draws
deriving DecidableEq, Repr

/-- The element has the same value in both states; memory through the read of one byte. -/
def Elem.Same (e : Elem) (s t : State) : Prop :=
  match e with
  | .v r => t.getV r = s.getV r
  | .i => t.i = s.i
  | .pc => t.pc = s.pc
  | .stack k => t.stack[k] = s.stack[k]
  | .sp => t.sp = s.sp
  | .dt => t.dt = s.dt
  | .st => t.st = s.st
  | .fb x y => fbGet t.fb x y = fbGet s.fb x y
  | .draw => t.draw = s.draw
  | .key k => t.key[k] = s.key[k]
  | .mem a => Memory.read t.mem a = Memory.read s.mem a
  | .font => t.mem.font = s.mem.font
  | .opcode => t.opcode = s.opcode
  | .draws => t.draws = s.draws

/-- Going from `s` to `t`, no element outside `p` changes. -/
def ChangesOnly (p : Elem → Prop) (s t : State) : Prop := ∀ e, ¬ p e → e.Same s t

/-- Bit `c` (counted from the left) of row `k` of the sprite at I in state `s` is set, that is bit `7 - c` of `MEM[I + k]` (R121,
D11), for a sprite of `n + 1` rows; it goes to column `VX + c` and row `VY + k`. -/
def SpriteBitAt (x y : Reg) (n : Nib) (s : State) (col row : Nat) : Prop :=
  ∃ k c : Nat, k ≤ n.val ∧ c < 8 ∧ col = (s.getV x).toNat + c ∧ row = (s.getV y).toNat + k ∧
    (Memory.read s.mem (baseAddr s + k)).getLsbD (7 - c) = true

end Sys2Proof.Machine
end

