-- ==== Sys2Proof/Certificates/Slice0/Obligations.lean ====
section
/-!
DEFINITION. The statements for the provers, in the order of OBLIGATIONS.json. A statement about an instruction says that `exec`
answers a next state, what that state holds, and (by `ChangesOnly`) that nothing else changed.
-/

open Sys2Proof Sys2Proof.Machine

/-! ### Encoding (`30_encoding.md`) -/

/-- Every instruction, with every operand at every value, decodes from its own word and from its own bytes (`30_encoding.md`
sections 1 to 3). That the terms of the two shifts keep the Y field is the model's form (log 26). -/
def Obligations.DecodeOfEncodeIsTheInstruction : Prop :=
  ∀ i : Instr, decodeWord (encode i) = some i ∧ decode (encodeBytes i) = .ok i

/-- What decodes from a word encodes back to it: no bit of the word is dropped (`30_encoding.md` sections 1 to 3). For 8XY6 and 8XYE this is so only
because the model's terms `shrVx` and `shlVx` keep the Y field (log 26, the model's form): the spec calls the 16 words one instruction with one
effect, and `ShiftsIgnoreY` says that the effect is one. -/
def Obligations.EncodeOfDecodeIsTheWord : Prop :=
  ∀ (w : Word) (i : Instr), decodeWord w = some i → encode i = w

/-- A word is recognized exactly when `(op AND mask) = match` for one row of the opcode map; the rows are pairwise disjoint; and the
instruction decoded is that row's, with the operand values that stand in the word (`30_encoding.md` section 3). That the patterns 5XY0 and 9XY0 fix their
last nibble is the spec's decision D16 (log 13); that the terms of 8XY6 and 8XYE hold the whole word, Y included, is the model's form (log 26). -/
def Obligations.RecognizedExactlyWhenOneRowMatches : Prop :=
  ∀ w : Word,
    ((∃ i, decodeWord w = some i) ↔ ∃ r ∈ opcodeRows, w &&& r.mask = r.pattern) ∧
    (∀ r ∈ opcodeRows, ∀ r' ∈ opcodeRows, w &&& r.mask = r.pattern → w &&& r'.mask = r'.pattern → r = r') ∧
    (∀ i, decodeWord w = some i → ∀ r ∈ opcodeRows, w &&& r.mask = r.pattern → r.mnemonic = i.mnemonic ∧ encode i = w)

/-- One word of each of eight families (0, 2, 7, 8, A, D, E, F), written out bit by bit from the table's encoding, decodes to its row's instruction;
the words 5121, FFFF and 0000 do not decode. That 5121 does not is the spec's decision D16 (log 13). -/
def Obligations.SpecWordsDecodeAsTheirRows : Prop :=
  decodeWord 0b0000_0000_1110_0000 = some .cls ∧
  decodeWord 0b0010_1010_1011_1100 = some (.callNnn 0xABC) ∧
  decodeWord 0b0111_0011_1111_1110 = some (.addVxNn 3 0xFE) ∧
  decodeWord 0b1000_0001_0010_0111 = some (.subnVxVy 1 2) ∧
  decodeWord 0b1010_0001_0010_0011 = some (.ldINnn 0x123) ∧
  decodeWord 0b1101_0010_0011_0001 = some (.drwVxVyN 2 3 1) ∧
  decodeWord 0b1110_0101_1010_0001 = some (.sknpVx 5) ∧
  decodeWord 0b1111_1011_0101_0101 = some (.ldMiVx 0xB) ∧
  decodeWord 0b0101_0001_0010_0001 = none ∧ decodeWord 0xFFFF = none ∧ decodeWord 0x0000 = none

/-- The Y field of 8XY6 and 8XYE selects nothing: all 16 values have the same effect (`30_encoding.md` section 4). That the model's terms hold the
field at all is its form (log 26). -/
def Obligations.ShiftsIgnoreY : Prop :=
  ∀ (x y y' : Reg) (s : State),
    exec (.shrVx x y) s = exec (.shrVx x y') s ∧ exec (.shlVx x y) s = exec (.shlVx x y') s

/-! ### The step (`40_step_cycle.md`) -/

/-- When the bytes at PC decode to an instruction, the step is `exec` of it on the state with the latch written, followed, on
success, by the tick; a fault or refusal of the instruction is the step's (`40_step_cycle.md` section 1). That OPCODE holds the fetched word
is the spec's decision D8 (log 11), that an odd PC is fetched byte by byte its decision D15 (log 12). -/
def Obligations.StepRunsTheDecodedInstruction : Prop :=
  ∀ (s : State) (i : Instr), s.pc.toNat ≤ 4094 →
    decode [Memory.read s.mem s.pc.toNat, Memory.read s.mem (s.pc.toNat + 1)] = .ok i →
    step s =
      match exec i { s with opcode := Memory.read s.mem s.pc.toNat ++ Memory.read s.mem (s.pc.toNat + 1) } with
      | .next t => .next (tick t)
      | .fault r => .fault r
      | .refused r => .refused r

/-- A word in place at PC is the instruction the next step runs: `withFetchWord` of any instruction's word, for any PC that a
fetch can read, odd ones included (`20_memory.md` section 2; decision D15, log 12). `withFetchWord` is the model's, for a load (log 22). -/
def Obligations.PlacedWordIsFetched : Prop :=
  ∀ (s : State) (i : Instr), s.pc.toNat ≤ 4094 →
    decode (fetchBytes (s.withFetchWord 16 (encode i).toNat)) = .ok i ∧
    ChangesOnly (fun e => e = .mem s.pc.toNat ∨ e = .mem (s.pc.toNat + 1)) s (s.withFetchWord 16 (encode i).toNat)

/-- After a step whose fetch was in range, whatever its outcome, OPCODE holds the word of the two bytes at PC, high byte first,
at either parity of PC: no instruction writes it again. That OPCODE is a latch written at every fetch is the spec's decision D8
(log 11), that an odd PC is fetched byte by byte its decision D15 (log 12). -/
def Obligations.LatchHoldsTheFetchedWord : Prop :=
  ∀ s : State, s.pc.toNat ≤ 4094 →
    (afterStep s).opcode.toNat =
      (Memory.read s.mem s.pc.toNat).toNat * 256 + (Memory.read s.mem (s.pc.toNat + 1)).toNat

/-- The step fails with `UnknownOpcode(op, PC)` exactly when the word it fetched is unrecognized, with the word and the address it was fetched
from (`40_step_cycle.md` section 3). Which words of families 5 and 9 are unrecognized is the spec's decision D16 (log 13), the fetch at an odd PC its
decision D15 (log 12). -/
def Obligations.UnknownOpcodeExactlyWhenUnrecognized : Prop :=
  ∀ (s : State) (op pc : Word), s.pc.toNat ≤ 4094 →
    (step s = .fault (.unknownOpcode op pc) ↔
      decodeWord (fetchWord s) = none ∧ op = fetchWord s ∧ pc = s.pc)

/-- Decision D5 (log 9): with PC above 4094 the step ends `Undefined(MemoryOutOfRange)`, no state changes, OPCODE included, and there is no
beep (an output of the step: D28, log 20). -/
def Obligations.FetchBeyondMemoryStops : Prop :=
  ∀ s : State, 4094 < s.pc.toNat →
    step s = .fault .memoryOutOfRange ∧ afterStep s = s ∧ stepBeeps s = false

/-- Decisions D1 and D7 (logs 9, 10): a step that does not succeed changes nothing but OPCODE (the latch: D8, log 11), and outputs no beep (D28,
log 20). -/
def Obligations.FailedStepChangesOnlyTheLatch : Prop :=
  ∀ (s : State) (r : Fault), step s = .fault r →
    ChangesOnly (· = .opcode) s (afterStep s) ∧ (afterStep s).mem = s.mem ∧ stepBeeps s = false

/-- Decision D25 (log 21): stepping again after a failure fails with the same outcome, whatever keys the caller wrote and whatever is
drawn in between. What a failing step leaves is its decisions D1, D7 and D8 (logs 9, 10, 11). -/
def Obligations.SteppingAgainFailsTheSameWay : Prop :=
  ∀ (s : State) (r : Fault) (keys : Vector Bool 16) (d : Nat), step s = .fault r →
    step { afterStep s with key := keys, draws := d } = .fault r

/-- The order and the completeness of the checks (the table of `40_step_cycle.md` section 6, decisions D2 to D6, D29; log 9; the sprite
geometry of the DXYN clauses: D11, D22, logs 5 and 7): an instruction faults exactly in the listed cases, with the listed reason, and is never
refused; every other instruction always succeeds. -/
def Obligations.InstructionsFaultExactlyAsListed : Prop :=
  ∀ (i : Instr) (s : State),
    (∀ r, exec i s ≠ .refused r) ∧
    ∀ r, exec i s = .fault r ↔
      (i = .ret ∧ s.sp.val = 0 ∧ r = .stackUnderflow) ∨
      (∃ nnn, i = .callNnn nnn ∧ s.sp.val = 16 ∧ r = .stackOverflow) ∨
      (∃ x, (i = .skpVx x ∨ i = .sknpVx x) ∧ 15 < (s.getV x).toNat ∧ r = .keyIndexOutOfRange) ∨
      (∃ x, i = .ldBVx x ∧ 4095 < s.i.toNat + 2 ∧ r = .memoryOutOfRange) ∨
      (∃ x, (i = .ldMiVx x ∨ i = .ldVxMi x) ∧ 4095 < s.i.toNat + x.val ∧ r = .memoryOutOfRange) ∨
      (∃ x y n, i = .drwVxVyN x y n ∧ 4095 < s.i.toNat + n.val ∧ r = .memoryOutOfRange) ∨
      (∃ x y n, i = .drwVxVyN x y n ∧ s.i.toNat + n.val ≤ 4095 ∧
        (∃ col row, SpriteBitAt x y n s col row ∧ (63 < col ∨ 31 < row)) ∧ r = .framebufferOutOfRange)

/-- How each instruction leaves PC, the whole table of `10_state.md` section 3. (That a step outside the source's definitions leaves PC is the spec's
decision D1, log 9.) -/
def Obligations.PcAfterEveryInstruction : Prop :=
  (∀ (i : Instr) (s t : State), exec i s = .next t →
    match i with
    | .jpNnn nnn => t.pc.toNat = nnn.toNat
    | .callNnn nnn => t.pc.toNat = nnn.toNat
    | .jpV0Nnn nnn => t.pc.toNat = nnn.toNat + (s.getV 0).toNat ∧ t.pc.toNat ≤ 0x10FE
    | .ret => ∃ k : Fin 16, k.val + 1 = s.sp.val ∧ t.pc = s.stack[k] + 2
    | .seVxNn x nn => t.pc = if s.getV x = nn then s.pc + 4 else s.pc + 2
    | .sneVxNn x nn => t.pc = if s.getV x ≠ nn then s.pc + 4 else s.pc + 2
    | .seVxVy x y => t.pc = if s.getV x = s.getV y then s.pc + 4 else s.pc + 2
    | .sneVxVy x y => t.pc = if s.getV x ≠ s.getV y then s.pc + 4 else s.pc + 2
    | .skpVx x => ∃ k : Key, k.val = (s.getV x).toNat ∧ t.pc = if s.key[k] then s.pc + 4 else s.pc + 2
    | .sknpVx x => ∃ k : Key, k.val = (s.getV x).toNat ∧ t.pc = if s.key[k] then s.pc + 2 else s.pc + 4
    | .ldVxK _ => if ∃ k : Key, s.key[k] = true then t.pc = s.pc + 2 else t.pc = s.pc
    | _ => t.pc = s.pc + 2) ∧
  ∀ s : State, (∀ t, step s ≠ .next t) → (afterStep s).pc = s.pc

/-! ### Timers and buzzer (`60_exceptions.md` section 4) -/

/-- After the effects of every successful step each timer that is above 0 loses exactly 1 and one at 0 stays 0; nothing else
changes; the beep is 1 exactly on a successful step whose tick finds ST = 1 (`60_exceptions.md` section 4). That a step which does not succeed neither
ticks nor beeps is the spec's decision D7 (log 10), that the beep is an output of the step its decision D28 (log 20), that OPCODE holds the fetched word its
decision D8 (log 11). -/
def Obligations.TickFollowsEverySuccess : Prop :=
  ∀ s : State,
    (∀ t, step s = .next t → ∃ i u, decode (fetchBytes s) = .ok i ∧
      exec i (s.setOpcode (fetchWord s)) = .next u ∧
      t.dt.toNat = u.dt.toNat - 1 ∧ t.st.toNat = u.st.toNat - 1 ∧
      ChangesOnly (· ∈ [Elem.dt, Elem.st]) u t ∧ (stepBeeps s = true ↔ u.st.toNat = 1)) ∧
    ((∀ t, step s ≠ .next t) → stepBeeps s = false ∧ (afterStep s).dt = s.dt ∧ (afterStep s).st = s.st)

/-- After n successful steps none of which executes FX15, a delay timer that held M reads `max(M - n, 0)` (the source's property quoted in
`45_keypad_timers.md` section 3), and likewise the sound timer without FX18. -/
def Obligations.TimersCountSuccessfulSteps : Prop :=
  ∀ (n : Nat) (s t : State),
    (RunsTo (fun i => ∀ x, i ≠ .ldDtVx x) n s t → t.dt.toNat = s.dt.toNat - n) ∧
    (RunsTo (fun i => ∀ x, i ≠ .ldStVx x) n s t → t.st.toNat = s.st.toNat - n)

/-- A sound timer that holds M beeps on the M-th step and on no other, while no step executes FX18 (`60_exceptions.md` section 4). That
the beep is an output of the step is the spec's decision D28 (log 20). -/
def Obligations.SoundTimerBeepsOnce : Prop :=
  ∀ (n : Nat) (s t u : State), RunsTo (fun i => ∀ x, i ≠ .ldStVx x) n s t →
    RunsTo (fun i => ∀ x, i ≠ .ldStVx x) 1 t u → (stepBeeps t = true ↔ s.st.toNat = n + 1)

/-! ### The machine as a whole (`10_state.md`, `20_memory.md`) -/

/-- Every step keeps the invariant: memory canonical, used slots of the call stack hold addresses of calls and free slots hold 0, PC
at most 0x10FE (`10_state.md` sections 3 and 4). The canonical form of memory is the model's (log 4); that a call with SP = 16 and a return
with SP = 0 end the step is the spec's decisions D2 and D3 (log 9). -/
def Obligations.StepKeepsTheInvariant : Prop :=
  ∀ s t : State, s.Inv → step s = .next t → t.Inv

/-- The invariant holds right after reset, for the default font table and for every other. -/
def Obligations.ResetHasTheInvariant : Prop := State.reset.Inv ∧ ∀ font : FontTable, (State.resetWith font).Inv

/-- Every operation of the caller keeps the invariant, a failing step among them (the canonical form: log 4; what a failing step leaves: D1, D7,
logs 9 and 10; what a failing load leaves: D17, log 14). -/
def Obligations.CallerKeepsTheInvariant : Prop :=
  ∀ (op : CallerOp) (s : State), s.Inv → (callerOp op s).1.Inv

/-- Nothing changes the parameter FONT_TABLE during a run: no step, successful or not, and no operation of the caller, `reset` among them
(`00_scope.md` section 4: a parameter of the model; decision D14, log 1). -/
def Obligations.FontTableIsFixedForARun : Prop :=
  ∀ s : State, (∀ t, step s = .next t → t.mem.font = s.mem.font) ∧ (afterStep s).mem.font = s.mem.font ∧
    ∀ op : CallerOp, (callerOp op s).1.mem.font = s.mem.font

/-- Two canonical memories of machines with one font table that read the same at every address are the same data: the model's form of
memory (log 4) keeps one representation of each content. -/
def Obligations.EqualContentsAreEqualMemories : Prop :=
  ∀ m m' : Memory, m.wf = true → m'.wf = true → m.font = m'.font →
    (∀ a, a ≤ 4095 → Memory.read m a = Memory.read m' a) → m = m'

/-- The "written by" column of the state table (`10_state.md` section 1): an instruction that succeeds changes I only if it is ANNN, FX1E or FX29, the call stack only if it
is 2NNN or 00EE, memory only if it is FX33 or FX55, the framebuffer and the redraw flag only if it is 00E0 or DXYN, DT only if it is
FX15, ST only if it is FX18; it never writes a key or OPCODE. That FX33, FX55, FX65 and DXYN leave I is the spec's decision D23 (log 18), that no instruction
writes the OPCODE latch its decision D8 (log 11). -/
def Obligations.OnlyTheListedInstructionsWrite : Prop :=
  ∀ (i : Instr) (s t : State), exec i s = .next t →
    (t.i = s.i ∨ (∃ nnn, i = .ldINnn nnn) ∨ ∃ x, i = .addIVx x ∨ i = .ldFVx x) ∧
    ((t.stack = s.stack ∧ t.sp = s.sp) ∨ i = .ret ∨ ∃ nnn, i = .callNnn nnn) ∧
    (t.mem = s.mem ∨ ∃ x, i = .ldBVx x ∨ i = .ldMiVx x) ∧
    ((t.fb = s.fb ∧ t.draw = s.draw) ∨ (t.draw = true ∧ (i = .cls ∨ ∃ x y n, i = .drwVxVyN x y n))) ∧
    (t.dt = s.dt ∨ ∃ x, i = .ldDtVx x) ∧ (t.st = s.st ∨ ∃ x, i = .ldStVx x) ∧
    t.key = s.key ∧ t.opcode = s.opcode

/-- Every instruction but 8XY4, 8XY5, 8XY6, 8XY7, 8XYE and DXYN leaves VF alone unless VF is its named destination: X = 15 in a
register-writing form, or FX65 with X = 15 (`10_state.md` section 2). -/
def Obligations.OnlyFlagWritersTouchVF : Prop :=
  ∀ (i : Instr) (s t : State), exec i s = .next t → t.getV 15 ≠ s.getV 15 →
    (∃ x y, i = .addVxVy x y ∨ i = .subVxVy x y ∨ i = .shrVx x y ∨ i = .subnVxVy x y ∨ i = .shlVx x y) ∨
    (∃ x y n, i = .drwVxVyN x y n) ∨
    (∃ nn, i = .ldVxNn 15 nn ∨ i = .addVxNn 15 nn ∨ i = .rndVxNn 15 nn) ∨
    (∃ y, i = .ldVxVy 15 y ∨ i = .orVxVy 15 y ∨ i = .andVxVy 15 y ∨ i = .xorVxVy 15 y) ∨
    i = .ldVxDt 15 ∨ i = .ldVxK 15 ∨ i = .ldVxMi 15

/-- No instruction reads OPCODE, DRAW or ST: two states that differ in these only give the same outcome, and next states that
differ in these only (`10_state.md` sections 5, 6 and 8). That no instruction reads OPCODE is part of the spec's decision D8 (log 11). -/
def Obligations.LatchRedrawFlagAndSoundTimerAreNeverRead : Prop :=
  ∀ (i : Instr) (s : State) (w : Word) (b : Bool) (c : Byte),
    match exec i s, exec i { s with opcode := w, draw := b, st := c } with
    | .next t, .next t' => { t' with opcode := t.opcode, draw := t.draw, st := t.st } = t
    | .fault r, .fault r' => r = r'
    | _, _ => False

/-! ### Reset, load and the caller (`70_reset_and_hazards.md`) -/

/-- Every element of the state after `reset`, from any state, and of `State.resetWith`, for every font table; `State.reset` is the latter for
the default one. That OPCODE is 0 is the spec's decision D8 (log 11), that the font table is a parameter its decision D14 (log 1). -/
def Obligations.ResetLeavesTheListedValues : Prop :=
  ∀ (font : FontTable) (s t : State), (t = resetOp s ∧ font = s.mem.font) ∨ t = State.resetWith font →
    t.pc = 0x200 ∧ t.i = 0 ∧ t.sp.val = 0 ∧ t.dt = 0 ∧ t.st = 0 ∧ t.draw = true ∧ t.opcode = 0 ∧
    (∀ r, t.getV r = 0) ∧ (∀ k : Fin 16, t.stack[k] = 0) ∧ (∀ k : Key, t.key[k] = false) ∧
    (∀ x y, x < 64 → y < 32 → fbGet t.fb x y = false) ∧
    (∀ k : Fin 80, Memory.read t.mem k.val = font[k]) ∧
    (∀ a, 80 ≤ a → a ≤ 4095 → Memory.read t.mem a = 0)

/-- `loadProgram`: from length 3584 on it fails; below, it succeeds and MEM[0x200 + i] is byte i; in both cases nothing else changes. That
a failing load copies nothing is the spec's decision D17 (log 14). -/
def Obligations.LoadProgramCopiesOrFails : Prop :=
  ∀ (bytes : List Byte) (s : State),
    (3584 ≤ bytes.length → loadProgram bytes s = (s, .programTooLarge)) ∧
    (bytes.length < 3584 → (loadProgram bytes s).2 = .loaded ∧
      (∀ k (h : k < bytes.length), Memory.read (loadProgram bytes s).1.mem (0x200 + k) = bytes[k]) ∧
      ChangesOnly (fun e => ∃ a, e = .mem a ∧ 0x200 ≤ a ∧ a < 0x200 + bytes.length) s (loadProgram bytes s).1)

/-- Boot: after `reset` and a load of at least two bytes, the first fetch is of the program's first word (`70_reset_and_hazards.md`
section 2). -/
def Obligations.FirstFetchIsTheProgramsFirstWord : Prop :=
  ∀ (hi lo : Byte) (rest : List Byte) (s : State), rest.length < 3582 →
    fetchWord (loadProgram (hi :: lo :: rest) (resetOp s)).1 = hi ++ lo

/-- The spec's decision D18 (log 15): before the first `reset` every operation but `reset` is refused; `reset` gives the reset state;
afterwards no operation is refused. -/
def Obligations.OnlyResetBeforeReset : Prop :=
  ∀ (font : FontTable) (op : CallerOp),
    (callerDo font op none = if op = .reset then .ok (State.resetWith font, .done) else .error .beforeReset) ∧
    ∀ s : State, ∃ a, callerDo font op (some s) = .ok a

/-- A key write changes that key only; clearing the redraw flag changes DRAW only, to 0; reads change nothing and give the values of the
elements they name (`70_reset_and_hazards.md` section 3, `10_state.md` section 10). That the snapshot has no top of the call stack is the spec's choice
(log 28). -/
def Obligations.CallerWritesAndReads : Prop :=
  ∀ (s : State) (k : Key) (b : Bool),
    ((callerOp (.writeKey k b) s).1.key[k] = b ∧ ChangesOnly (· = .key k) s (callerOp (.writeKey k b) s).1) ∧
    ((callerOp .clearDraw s).1.draw = false ∧ ChangesOnly (· = .draw) s (callerOp .clearDraw s).1) ∧
    callerOp .readFramebuffer s = (s, .framebuffer s.fb) ∧
    callerOp .readDraw s = (s, .drawFlag s.draw) ∧
    callerOp .readSnapshot s =
      (s, .snapshot { v := s.v, opcode := s.opcode, pc := s.pc, i := s.i, sp := s.sp, dt := s.dt, st := s.st })

/-- The convention for the end of a run, the spec's decision D26 (log 25): from a jump to itself every step succeeds, PC stays, the run
stays ended, and only the timers and OPCODE change (the latch: D8, log 11; an odd PC: D15, log 12). -/
def Obligations.EndedRunOnlyTicks : Prop :=
  ∀ s : State, EndedNormally s → ∃ t, step s = .next t ∧ EndedNormally t ∧ t.pc = s.pc ∧
    ChangesOnly (· ∈ [Elem.dt, Elem.st, Elem.opcode]) s t

/-! ### Display (`41_display.md`) -/

/-- R120: 00E0 clears every cell and sets DRAW; nothing else but PC changes. -/
def Obligations.ClsClearsTheFramebuffer : Prop :=
  ∀ s : State, ∃ t, exec .cls s = .next t ∧
    (∀ x y, x < 64 → y < 32 → fbGet t.fb x y = false) ∧ t.draw = true ∧ t.pc = s.pc + 2 ∧
    ChangesOnly (fun e => e = .draw ∨ e = .pc ∨ ∃ x y, e = .fb x y) s t

/-- DXYN: when its bytes are in memory and its set bits are on the grid, it XORs every cell with the sprite bit that
falls on it, sets VF to 1 if some cell is turned off and else to 0, sets DRAW, and changes nothing else but PC; its coordinates are
those before VF is written. The row count N + 1 is the spec's decision D22 (log 7), the bit order and the axes D11 (log 5), VF = 0 without
collision and the order of VF D10 (log 6), I unchanged D23 (log 18). -/
def Obligations.DrwXorsTheSpriteAndReportsCollision : Prop :=
  ∀ (x y : Reg) (n : Nib) (s : State), s.i.toNat + n.val ≤ 4095 →
    (∀ col row, SpriteBitAt x y n s col row → col ≤ 63 ∧ row ≤ 31) →
    ∃ t, exec (.drwVxVyN x y n) s = .next t ∧
      (∀ col row, col < 64 → row < 32 →
        (SpriteBitAt x y n s col row → fbGet t.fb col row = !fbGet s.fb col row) ∧
        (¬ SpriteBitAt x y n s col row → fbGet t.fb col row = fbGet s.fb col row)) ∧
      ((∃ col row, SpriteBitAt x y n s col row ∧ fbGet s.fb col row = true) → t.getV 15 = 1) ∧
      ((¬ ∃ col row, SpriteBitAt x y n s col row ∧ fbGet s.fb col row = true) → t.getV 15 = 0) ∧
      t.draw = true ∧ t.pc = s.pc + 2 ∧
      ChangesOnly (fun e => e = .v 15 ∨ e = .draw ∨ e = .pc ∨ ∃ a b, e = .fb a b) s t

/-- Two identical draws with nothing drawn in between restore the framebuffer, and the second reports a collision exactly when some set bit's
cell was 0 before the first (`41_display.md` section 3). "Identical" asks that VX and VY be the same before the second draw: with X or Y = 15 the first draw's
flag must happen to equal the old coordinate. The row count is the spec's decision D22 (log 7), the bit order and the axes D11 (log 5), VF = 0 without
collision and the order of VF D10 (log 6); that the second draw reads the same sprite rests on I unchanged, D23 (log 18). -/
def Obligations.DrawingTwiceRestoresTheFramebuffer : Prop :=
  ∀ (x y : Reg) (n : Nib) (s t u : State), exec (.drwVxVyN x y n) s = .next t →
    t.getV x = s.getV x → t.getV y = s.getV y → exec (.drwVxVyN x y n) t = .next u →
    u.fb = s.fb ∧ (u.getV 15 = 1 ↔ ∃ col row, SpriteBitAt x y n s col row ∧ fbGet s.fb col row = false)

/-! ### Control flow (`42_control_flow.md`) -/

/-- 1NNN sets PC and nothing else, and so does BNNN, whose sum is not reduced to 12 bits and is at most 0x10FE (R132 and R135). That neither checks
its target is the spec's decision D15 (log 12). -/
def Obligations.JumpsSetPcOnly : Prop :=
  ∀ (nnn : Addr12) (s : State),
    (∃ t, exec (.jpNnn nnn) s = .next t ∧ t.pc.toNat = nnn.toNat ∧ ChangesOnly (· = .pc) s t) ∧
    (∃ t, exec (.jpV0Nnn nnn) s = .next t ∧ t.pc.toNat = nnn.toNat + (s.getV 0).toNat ∧
      t.pc.toNat ≤ 0x10FE ∧ ChangesOnly (· = .pc) s t)

/-- R136 to R139: the four register skips add 4 to PC when their condition holds, else 2, and change nothing else. -/
def Obligations.RegisterSkipsMovePcOnly : Prop :=
  ∀ (x y : Reg) (nn : Byte) (s : State),
    (∃ t, exec (.seVxNn x nn) s = .next t ∧ t.pc = s.pc + (if s.getV x = nn then 4 else 2) ∧
      ChangesOnly (· = .pc) s t) ∧
    (∃ t, exec (.sneVxNn x nn) s = .next t ∧ t.pc = s.pc + (if s.getV x = nn then 2 else 4) ∧
      ChangesOnly (· = .pc) s t) ∧
    (∃ t, exec (.seVxVy x y) s = .next t ∧ t.pc = s.pc + (if s.getV x = s.getV y then 4 else 2) ∧
      ChangesOnly (· = .pc) s t) ∧
    (∃ t, exec (.sneVxVy x y) s = .next t ∧ t.pc = s.pc + (if s.getV x = s.getV y then 2 else 4) ∧
      ChangesOnly (· = .pc) s t)

/-- 2NNN with a free slot stores its own address in the slot SP names, increments SP, jumps, and changes nothing else. (With SP = 16 it
is `Undefined(StackOverflow)`, decision D2, log 9: `InstructionsFaultExactlyAsListed`.) -/
def Obligations.CallPushesItsOwnAddress : Prop :=
  ∀ (nnn : Addr12) (s : State) (k : Fin 16), k.val = s.sp.val →
    ∃ t, exec (.callNnn nnn) s = .next t ∧ t.stack[k] = s.pc ∧ t.sp.val = s.sp.val + 1 ∧
      t.pc.toNat = nnn.toNat ∧ ChangesOnly (· ∈ [Elem.stack k, Elem.sp, Elem.pc]) s t

/-- 00EE with a used slot decrements SP, takes PC from the slot then named, plus 2, zeroes that slot, and changes nothing else. (With SP = 0
it is `Undefined(StackUnderflow)`, decision D3, log 9: `InstructionsFaultExactlyAsListed`.) -/
def Obligations.ReturnPopsAndZeroesTheSlot : Prop :=
  ∀ (s : State) (k : Fin 16), k.val + 1 = s.sp.val →
    ∃ t, exec .ret s = .next t ∧ t.sp.val = k.val ∧ t.pc = s.stack[k] + 2 ∧ t.stack[k] = 0 ∧
      ChangesOnly (· ∈ [Elem.stack k, Elem.sp, Elem.pc]) s t

/-- Call, then any instructions that keep the stack and SP, then return: PC is the call's address plus 2, SP and every slot are as before
the call, in a state whose free slots hold 0 (`42_control_flow.md` section 2). -/
def Obligations.CallThenReturnComesBack : Prop :=
  ∀ (nnn : Addr12) (s t t' : State), s.Inv → exec (.callNnn nnn) s = .next t → t'.stack = t.stack → t'.sp = t.sp →
    ∃ u, exec .ret t' = .next u ∧ u.pc = s.pc + 2 ∧ u.sp = s.sp ∧ u.stack = s.stack

/-! ### Arithmetic and logic (`43_alu.md`) -/

/-- R151, R153 to R156: immediate load, copy, OR, AND, XOR write VX and PC only; VF is not touched unless X = 15. -/
def Obligations.LoadsAndLogicWriteVxOnly : Prop :=
  ∀ (x y : Reg) (nn : Byte) (s : State),
    (∃ t, exec (.ldVxNn x nn) s = .next t ∧ t.getV x = nn ∧ t.pc = s.pc + 2 ∧
      ChangesOnly (· ∈ [Elem.v x, Elem.pc]) s t) ∧
    (∃ t, exec (.ldVxVy x y) s = .next t ∧ t.getV x = s.getV y ∧ t.pc = s.pc + 2 ∧
      ChangesOnly (· ∈ [Elem.v x, Elem.pc]) s t) ∧
    (∃ t, exec (.orVxVy x y) s = .next t ∧ t.getV x = s.getV x ||| s.getV y ∧ t.pc = s.pc + 2 ∧
      ChangesOnly (· ∈ [Elem.v x, Elem.pc]) s t) ∧
    (∃ t, exec (.andVxVy x y) s = .next t ∧ t.getV x = s.getV x &&& s.getV y ∧ t.pc = s.pc + 2 ∧
      ChangesOnly (· ∈ [Elem.v x, Elem.pc]) s t) ∧
    (∃ t, exec (.xorVxVy x y) s = .next t ∧ t.getV x = s.getV x ^^^ s.getV y ∧ t.pc = s.pc + 2 ∧
      ChangesOnly (· ∈ [Elem.v x, Elem.pc]) s t)

/-- R152: add immediate, mod 256, no flag touched. -/
def Obligations.AddImmediateWrapsWithoutFlag : Prop :=
  ∀ (x : Reg) (nn : Byte) (s : State), ∃ t, exec (.addVxNn x nn) s = .next t ∧
    (t.getV x).toNat = ((s.getV x).toNat + nn.toNat) % 256 ∧ t.pc = s.pc + 2 ∧
    ChangesOnly (· ∈ [Elem.v x, Elem.pc]) s t

/-- 8XY4: the whole table of `43_alu.md` section 4. a, b, f are VX, VY, VF before, c the carry on them. The cases with X = 15 or
Y = 15 are the spec's decision D9 (log 8). -/
def Obligations.AddWithCarryOut : Prop :=
  ∀ (x y : Reg) (s : State), ∃ t, exec (.addVxVy x y) s = .next t ∧
    (let a := (s.getV x).toNat; let b := (s.getV y).toNat
     let c := if a + b > 255 then 1 else 0
     if x = 15 then
       (t.getV 15).toNat = if y = 15 then 2 * c else (c + b) % 256
     else
       (t.getV x).toNat = (if y = 15 then (a + c) % 256 else (a + b) % 256) ∧ (t.getV 15).toNat = c) ∧
    t.pc = s.pc + 2 ∧ ChangesOnly (· ∈ [Elem.v x, Elem.v 15, Elem.pc]) s t

/-- 8XY5: the whole table of `43_alu.md` section 4; n is the no-borrow flag on the old values, equality included. The cases with X = 15 or
Y = 15 are the spec's decision D9 (log 8). -/
def Obligations.SubtractWithNoBorrowFlag : Prop :=
  ∀ (x y : Reg) (s : State), ∃ t, exec (.subVxVy x y) s = .next t ∧
    (let a := (s.getV x).toNat; let b := (s.getV y).toNat
     let n := if a ≥ b then 1 else 0
     if x = 15 then
       (t.getV 15).toNat = if y = 15 then 0 else (n + 256 - b) % 256
     else
       (t.getV x).toNat = (if y = 15 then (a + 256 - n) % 256 else (a + 256 - b) % 256) ∧ (t.getV 15).toNat = n) ∧
    t.pc = s.pc + 2 ∧ ChangesOnly (· ∈ [Elem.v x, Elem.v 15, Elem.pc]) s t

/-- 8XY7: the whole table of `43_alu.md` section 4; n is the no-borrow flag of VY - VX on the old values. The cases with X = 15 or Y = 15
are the spec's decision D9 (log 8). -/
def Obligations.ReverseSubtractWithNoBorrowFlag : Prop :=
  ∀ (x y : Reg) (s : State), ∃ t, exec (.subnVxVy x y) s = .next t ∧
    (let a := (s.getV x).toNat; let b := (s.getV y).toNat
     let n := if b ≥ a then 1 else 0
     if x = 15 then
       (t.getV 15).toNat = if y = 15 then 0 else (b + 256 - n) % 256
     else
       (t.getV x).toNat = (if y = 15 then (n + 256 - a) % 256 else (b + 256 - a) % 256) ∧ (t.getV 15).toNat = n) ∧
    t.pc = s.pc + 2 ∧ ChangesOnly (· ∈ [Elem.v x, Elem.v 15, Elem.pc]) s t

/-- 8XY6 and 8XYE: VF receives the bit shifted out, VX is halved or doubled mod 256; with X = 15 the flag is written first and then shifted, the
spec's decision D9 (log 8). -/
def Obligations.ShiftsByOneWithFlag : Prop :=
  ∀ (x y : Reg) (s : State),
    (∃ t, exec (.shrVx x y) s = .next t ∧
      (if x = 15 then t.getV 15 = 0
       else (t.getV x).toNat = (s.getV x).toNat / 2 ∧ (t.getV 15).toNat = (s.getV x).toNat % 2) ∧
      t.pc = s.pc + 2 ∧ ChangesOnly (· ∈ [Elem.v x, Elem.v 15, Elem.pc]) s t) ∧
    (∃ t, exec (.shlVx x y) s = .next t ∧
      (if x = 15 then t.getV 15 = if (s.getV 15).toNat ≥ 128 then 2 else 0
       else (t.getV x).toNat = (s.getV x).toNat * 2 % 256 ∧ (t.getV 15).toNat = (s.getV x).toNat / 128) ∧
      t.pc = s.pc + 2 ∧ ChangesOnly (· ∈ [Elem.v x, Elem.v 15, Elem.pc]) s t)

/-- The operand order of the flag tests (`43_alu.md` section 6): where the flag survives (X not 15) VF tells exactly the test on the old values.
(With X = 15 the result overwrites the flag: the three statements above.) -/
def Obligations.FlagTestsKeepTheirOperandOrder : Prop :=
  ∀ (x y : Reg) (s t : State), x ≠ 15 →
    (exec (.addVxVy x y) s = .next t →
      t.getV 15 = if (s.getV x).toNat + (s.getV y).toNat > 255 then 1 else 0) ∧
    (exec (.subVxVy x y) s = .next t → t.getV 15 = if (s.getV x).toNat ≥ (s.getV y).toNat then 1 else 0) ∧
    (exec (.subnVxVy x y) s = .next t → t.getV 15 = if (s.getV y).toNat ≥ (s.getV x).toNat then 1 else 0)

/-- CXNN: VX receives a free byte AND NN, so no bit that NN lacks, for whatever byte is drawn (the free value of log 2, decision D13); the count of draws
advances; VF is untouched unless X = 15. -/
def Obligations.RandomByteIsMasked : Prop :=
  ∀ (x : Reg) (nn : Byte) (s : State), ∃ t, exec (.rndVxNn x nn) s = .next t ∧
    t.getV x = Config.randomByte s.draws &&& nn ∧ t.getV x &&& ~~~nn = 0 ∧ t.draws = s.draws + 1 ∧
    t.pc = s.pc + 2 ∧ ChangesOnly (· ∈ [Elem.v x, Elem.draws, Elem.pc]) s t

/-! ### Index register and memory (`44_index_memory.md`) -/

/-- R181, R182, R183: ANNN, FX1E and FX29 write I (and PC) only: the zero-extended NNN, the sum mod 65536, five times the whole of VX. -/
def Obligations.IndexInstructionsWriteIOnly : Prop :=
  ∀ (x : Reg) (nnn : Addr12) (s : State),
    (∃ t, exec (.ldINnn nnn) s = .next t ∧ t.i.toNat = nnn.toNat ∧ t.pc = s.pc + 2 ∧
      ChangesOnly (· ∈ [Elem.i, Elem.pc]) s t) ∧
    (∃ t, exec (.addIVx x) s = .next t ∧ t.i.toNat = (s.i.toNat + (s.getV x).toNat) % 65536 ∧ t.pc = s.pc + 2 ∧
      ChangesOnly (· ∈ [Elem.i, Elem.pc]) s t) ∧
    (∃ t, exec (.ldFVx x) s = .next t ∧ t.i.toNat = (s.getV x).toNat * 5 ∧ t.pc = s.pc + 2 ∧
      ChangesOnly (· ∈ [Elem.i, Elem.pc]) s t)

/-- FX33: hundreds, tens and ones of VX at I, I + 1, I + 2, one digit a byte; every other address, and everything else but PC, as
before. (With I above 4093 it is `Undefined(MemoryOutOfRange)`, decision D5, log 9; that I is unchanged is decision D23, log 18; that the
addresses below 0x200 are ordinary memory D24, log 19.) -/
def Obligations.BcdStoresThreeDigits : Prop :=
  ∀ (x : Reg) (s : State), s.i.toNat + 2 ≤ 4095 → ∃ t, exec (.ldBVx x) s = .next t ∧
    (Memory.read t.mem (baseAddr s)).toNat = (s.getV x).toNat / 100 ∧
    (Memory.read t.mem (baseAddr s + 1)).toNat = (s.getV x).toNat / 10 % 10 ∧
    (Memory.read t.mem (baseAddr s + 2)).toNat = (s.getV x).toNat % 10 ∧ t.pc = s.pc + 2 ∧
    ChangesOnly (fun e => e = .pc ∨ ∃ a, e = .mem a ∧ baseAddr s ≤ a ∧ a < baseAddr s + 3) s t

/-- FX55: V0 to VX at I to I + X; every other address, and everything else but PC, as before. (Beyond 4095: decision D5, log 9; I unchanged:
D23, log 18; addresses below 0x200 writable: D24, log 19.) -/
def Obligations.StoreRegistersWritesTheBlock : Prop :=
  ∀ (x : Reg) (s : State), s.i.toNat + x.val ≤ 4095 → ∃ t, exec (.ldMiVx x) s = .next t ∧
    (∀ r : Reg, r ≤ x → Memory.read t.mem (baseAddr s + r.val) = s.getV r) ∧ t.pc = s.pc + 2 ∧
    ChangesOnly (fun e => e = .pc ∨ ∃ a, e = .mem a ∧ baseAddr s ≤ a ∧ a < baseAddr s + x.val + 1) s t

/-- FX65: V0 to VX from I to I + X; every register above X, all of memory, I and everything else but PC as before. (Beyond 4095: decision D5, log 9; I unchanged:
decision D23, log 18.) -/
def Obligations.LoadRegistersReadsTheBlock : Prop :=
  ∀ (x : Reg) (s : State), s.i.toNat + x.val ≤ 4095 → ∃ t, exec (.ldVxMi x) s = .next t ∧
    (∀ r : Reg, r ≤ x → t.getV r = Memory.read s.mem (baseAddr s + r.val)) ∧ t.pc = s.pc + 2 ∧
    ChangesOnly (fun e => e = .pc ∨ ∃ r, e = .v r ∧ r ≤ x) s t

/-- What FX55 stored, FX65 loads back, in any later state with the same memory and I (`44_index_memory.md` section 3). I unchanged is the spec's
decision D23 (log 18), that the addresses below 0x200 can be stored to D24 (log 19). -/
def Obligations.StoredRegistersLoadBack : Prop :=
  ∀ (x : Reg) (s t u : State), exec (.ldMiVx x) s = .next t → u.mem = t.mem → u.i = s.i →
    ∃ w, exec (.ldVxMi x) u = .next w ∧ ∀ r : Reg, (r ≤ x → w.getV r = s.getV r) ∧ (x < r → w.getV r = u.getV r)

/-- A byte stored by FX55 is seen by the very next fetch, also when it overwrites the next instruction (`20_memory.md` section 8). The spec's
decisions D15 (an odd PC, log 12) and D24 (addresses below 0x200, log 19) are among what it rests on. -/
def Obligations.StoredInstructionIsFetchedNext : Prop :=
  ∀ (x : Reg) (s t : State), exec (.ldMiVx x) s = .next t → 1 ≤ x.val → s.i.toNat = s.pc.toNat + 2 →
    fetchWord t = s.getV 0 ++ s.getV 1

/-! ### Keypad and timers (`45_keypad_timers.md`) -/

/-- EX9E and EXA1 with VX at most 15: PC advances by 4 or 2 by the level of key VX, and nothing else changes. (With VX above 15:
`Undefined(KeyIndexOutOfRange)`, decision D6, log 9.) -/
def Obligations.KeySkipsFollowTheKey : Prop :=
  ∀ (x : Reg) (s : State) (k : Key), k.val = (s.getV x).toNat →
    (∃ t, exec (.skpVx x) s = .next t ∧ t.pc = s.pc + (if s.key[k] = true then 4 else 2) ∧
      ChangesOnly (· = .pc) s t) ∧
    (∃ t, exec (.sknpVx x) s = .next t ∧ t.pc = s.pc + (if s.key[k] = true then 2 else 4) ∧
      ChangesOnly (· = .pc) s t)

/-- FX0A always succeeds: with no key down nothing changes, PC included; with some key down VX receives the number of a pressed key, for
whatever choice is made among several (the free value of log 3, decision D12), and PC advances. -/
def Obligations.KeyWaitTakesAPressedKey : Prop :=
  ∀ (x : Reg) (s : State), ∃ t, exec (.ldVxK x) s = .next t ∧
    ((∀ k : Key, s.key[k] = false) → t = s) ∧
    ((∃ k : Key, s.key[k] = true) →
      (∃ k : Key, s.key[k] = true ∧ (t.getV x).toNat = k.val) ∧ t.pc = s.pc + 2 ∧
      ChangesOnly (· ∈ [Elem.v x, Elem.draws, Elem.pc]) s t)

/-- A waiting FX0A: while no key is down, any number of steps all succeed, PC does not move, and the timers count down
(`45_keypad_timers.md` section 2). That OPCODE is written at each fetch is the spec's decision D8 (log 11), the fetch at an odd PC D15 (log 12). -/
def Obligations.KeyWaitPollsWhileTimersRun : Prop :=
  ∀ (n : Nat) (x : Reg) (s : State), s.pc.toNat ≤ 4094 → decode (fetchBytes s) = .ok (.ldVxK x) →
    (∀ k : Key, s.key[k] = false) →
    ∃ t, RunsTo (· = .ldVxK x) n s t ∧ t.pc = s.pc ∧ t.dt.toNat = s.dt.toNat - n ∧ t.st.toNat = s.st.toNat - n ∧
      ChangesOnly (· ∈ [Elem.dt, Elem.st, Elem.opcode]) s t

/-- R205, R206, R207: the execute phase of FX07 reads DT into VX, of FX15 and FX18 writes DT and ST from VX; nothing else but PC changes. -/
def Obligations.TimerInstructionsMoveOneByte : Prop :=
  ∀ (x : Reg) (s : State),
    (∃ t, exec (.ldVxDt x) s = .next t ∧ t.getV x = s.dt ∧ t.pc = s.pc + 2 ∧
      ChangesOnly (· ∈ [Elem.v x, Elem.pc]) s t) ∧
    (∃ t, exec (.ldDtVx x) s = .next t ∧ t.dt = s.getV x ∧ t.pc = s.pc + 2 ∧
      ChangesOnly (· ∈ [Elem.dt, Elem.pc]) s t) ∧
    (∃ t, exec (.ldStVx x) s = .next t ∧ t.st = s.getV x ∧ t.pc = s.pc + 2 ∧
      ChangesOnly (· ∈ [Elem.st, Elem.pc]) s t)

/-- A timer written by FX15 or FX18 loses 1 in the same step: after the step it holds VX - 1, or 0 (`45_keypad_timers.md` section 3). With VX = 1 the FX18 beeps in
its own step (the beep as an output: the spec's decision D28, log 20; the fetch at an odd PC: D15, log 12). -/
def Obligations.WrittenTimerTicksInTheSameStep : Prop :=
  ∀ (x : Reg) (s : State), s.pc.toNat ≤ 4094 →
    (decode (fetchBytes s) = .ok (.ldDtVx x) →
      ∃ t, step s = .next t ∧ t.dt.toNat = (s.getV x).toNat - 1) ∧
    (decode (fetchBytes s) = .ok (.ldStVx x) →
      ∃ t, step s = .next t ∧ t.st.toNat = (s.getV x).toNat - 1 ∧ (stepBeeps s = true ↔ s.getV x = 1))
end

