-- ==== Sys2Proof/Laws/Memory.lean ====
section
/-!
SUPPORT. The laws of memory: read after write, blocks, and that every operation keeps the canonical form.
-/

namespace Sys2Proof.Machine

/-! ### Reset contents -/

/-- With nothing listed, an address reads as `reset` left it. -/
@[simp] theorem Memory.read_unlisted (font : FontTable) (a : Nat) : Memory.read ⟨font, []⟩ a = Memory.unlisted font a := rfl

/-- Addresses 0 to 79 hold the font table (R263). -/
@[simp] theorem Memory.unlisted_font (font : FontTable) (k : Fin 80) : Memory.unlisted font k.val = font[k] := by
  simp [Memory.unlisted]

/-- From 80 on `reset` leaves 0 (R37). -/
theorem Memory.unlisted_zero (font : FontTable) {a : Nat} (h : 80 ≤ a) : Memory.unlisted font a = 0 := by
  simp [Memory.unlisted, Config.fontBytes, Nat.not_lt.mpr h]

/-! ### Cells -/

theorem readCells_drop_other {font : FontTable} {cells : List Host.Cell} {a b : Nat} (h : b ≠ a) :
    readCells font b (dropCell a cells) = readCells font b cells := by
  induction cells with
  | nil => rfl
  | cons c rest ih =>
    unfold dropCell at *
    by_cases hc : c.1 = a
    · have : c.1 ≠ b := by omega
      simp_all [readCells]
    · simp [hc, readCells, ih]

theorem readCells_drop_same (font : FontTable) (cells : List Host.Cell) (a : Nat) :
    readCells font a (dropCell a cells) = Memory.unlisted font a := by
  induction cells with
  | nil => rfl
  | cons c rest ih =>
    unfold dropCell at *
    by_cases hc : c.1 = a <;> simp [hc, readCells, ih]

theorem readCells_insert_other {font : FontTable} {cells : List Host.Cell} {a b : Nat} (v : Byte) (h : b ≠ a) :
    readCells font b (insertCell (a, v) cells) = readCells font b cells := by
  induction cells with
  | nil => simp [insertCell, readCells, h.symm]
  | cons c rest ih =>
    by_cases hc : a < c.1
    · simp [insertCell, hc, readCells, h.symm]
    · simp [insertCell, hc, readCells, ih]

theorem readCells_insert_same {font : FontTable} {cells : List Host.Cell} {a : Nat} (v : Byte) (h : ∀ c ∈ cells, c.1 ≠ a) :
    readCells font a (insertCell (a, v) cells) = v := by
  induction cells with
  | nil => simp [insertCell, readCells]
  | cons c rest ih =>
    have hc : c.1 ≠ a := h c (by simp)
    by_cases hlt : a < c.1
    · simp [insertCell, hlt, readCells]
    · simp [insertCell, hlt, readCells, hc, ih (fun d hd => h d (by simp [hd]))]

theorem ne_of_mem_dropCell {a : Nat} {cells : List Host.Cell} {c : Host.Cell} (h : c ∈ dropCell a cells) : c.1 ≠ a := by
  simpa using (List.mem_filter.mp h).2

/-! ### Read after write -/

/-- A read gives the byte last written there, in every memory, canonical or not (R55). -/
@[simp] theorem Memory.read_write_same (m : Memory) (a : Nat) (v : Byte) :
    Memory.read (Memory.write m a v) a = v := by
  simp only [Memory.read, Memory.write]
  split
  · rename_i h; rw [readCells_drop_same, h]
  · exact readCells_insert_same v (fun _ => ne_of_mem_dropCell)

/-- A write leaves every other address alone (R55). -/
theorem Memory.read_write_other {m : Memory} {a b : Nat} (v : Byte) (h : b ≠ a) :
    Memory.read (Memory.write m a v) b = Memory.read m b := by
  simp only [Memory.read, Memory.write]
  split
  · exact readCells_drop_other h
  · rw [readCells_insert_other v h, readCells_drop_other h]

theorem Memory.read_write (m : Memory) (a b : Nat) (v : Byte) :
    Memory.read (Memory.write m a v) b = if b = a then v else Memory.read m b := by
  split
  · subst_vars; exact Memory.read_write_same m _ v
  · exact Memory.read_write_other v ‹_›

/-! ### Blocks -/

/-- Everything a block store does to a read: the bytes of the block inside it, the old memory outside it. -/
theorem Memory.read_writeBlock (m : Memory) (base : Nat) (bs : List Byte) (a : Nat) :
    Memory.read (Memory.writeBlock m base bs) a =
      if h : base ≤ a ∧ a < base + bs.length then bs[a - base]'(by omega) else Memory.read m a := by
  induction bs generalizing m base with
  | nil => rw [dif_neg (by simp)]; rfl
  | cons b bs ih =>
    rw [Memory.writeBlock, ih, Memory.read_write]
    by_cases hin : base + 1 ≤ a ∧ a < base + 1 + bs.length
    · have e : a - base = (a - (base + 1)) + 1 := by omega
      rw [dif_pos hin, dif_pos (by simp only [List.length_cons]; omega)]
      simp only [e, List.getElem_cons_succ]
    · rw [dif_neg hin]
      by_cases ha : a = base
      · subst ha
        rw [dif_pos (by simp), if_pos rfl]
        simp
      · rw [dif_neg (by simp only [List.length_cons]; omega), if_neg ha]

theorem Memory.read_writeBlock_outside {m : Memory} {base a : Nat} {bs : List Byte}
    (h : a < base ∨ base + bs.length ≤ a) : Memory.read (Memory.writeBlock m base bs) a = Memory.read m a := by
  rw [Memory.read_writeBlock, dif_neg (by omega)]

@[simp] theorem Memory.readBlock_length (m : Memory) (base count : Nat) :
    (Memory.readBlock m base count).length = count := by
  induction count generalizing base with
  | zero => rfl
  | succ n ih => simp [Memory.readBlock, ih]

@[simp] theorem Memory.readBlock_getElem (m : Memory) (base count k : Nat)
    (h : k < (Memory.readBlock m base count).length) :
    (Memory.readBlock m base count)[k] = Memory.read m (base + k) := by
  induction count generalizing base k with
  | zero => simp [Memory.readBlock] at h
  | succ n ih =>
    cases k with
    | zero => simp [Memory.readBlock]
    | succ k =>
      have := ih (base + 1) k (by simpa using h)
      simpa [Memory.readBlock, Nat.add_assoc, Nat.add_comm 1 k] using this

/-! ### The font table is a parameter: nothing changes it (R8) -/

@[simp] theorem Memory.write_font (m : Memory) (a : Nat) (v : Byte) : (Memory.write m a v).font = m.font := rfl

@[simp] theorem Memory.writeBlock_font (m : Memory) (base : Nat) (bs : List Byte) :
    (Memory.writeBlock m base bs).font = m.font := by
  induction bs generalizing m base with
  | nil => rfl
  | cons b bs ih => rw [Memory.writeBlock, ih, Memory.write_font]

/-! ### The canonical form -/

theorem cellsWf_cons {font : FontTable} {c : Host.Cell} {cells : List Host.Cell} :
    cellsWf font (c :: cells) = true ↔
      c.1 < 4096 ∧ c.2 ≠ Memory.unlisted font c.1 ∧ (∀ d ∈ cells, c.1 < d.1) ∧ cellsWf font cells = true := by
  simp [cellsWf, Config.memSize, and_assoc]

theorem cellsWf_drop {font : FontTable} {cells : List Host.Cell} (a : Nat) (h : cellsWf font cells = true) :
    cellsWf font (dropCell a cells) = true := by
  induction cells with
  | nil => rfl
  | cons c rest ih =>
    obtain ⟨h1, h2, h3, h4⟩ := cellsWf_cons.mp h
    by_cases hc : c.1 = a
    · simpa [dropCell, hc] using ih h4
    · have : dropCell a (c :: rest) = c :: dropCell a rest := by simp [dropCell, hc]
      rw [this]
      exact cellsWf_cons.mpr ⟨h1, h2, fun d hd => h3 d (List.mem_filter.mp hd).1, ih h4⟩

theorem mem_insertCell {c d : Host.Cell} {cells : List Host.Cell} : d ∈ insertCell c cells ↔ d = c ∨ d ∈ cells := by
  induction cells with
  | nil => simp [insertCell]
  | cons e rest ih =>
    unfold insertCell
    split
    · simp
    · simp only [List.mem_cons, ih]; tauto

theorem cellsWf_insert {font : FontTable} {cells : List Host.Cell} {a : Nat} {v : Byte} (h : cellsWf font cells = true)
    (ha : a < 4096) (hv : v ≠ Memory.unlisted font a) (hfree : ∀ c ∈ cells, c.1 ≠ a) :
    cellsWf font (insertCell (a, v) cells) = true := by
  induction cells with
  | nil => exact cellsWf_cons.mpr ⟨ha, hv, by simp, rfl⟩
  | cons c rest ih =>
    obtain ⟨h1, h2, h3, h4⟩ := cellsWf_cons.mp h
    have hca : c.1 ≠ a := hfree c (by simp)
    unfold insertCell
    split
    · rename_i hlt
      refine cellsWf_cons.mpr ⟨ha, hv, fun d hd => ?_, h⟩
      rcases List.mem_cons.mp hd with rfl | hd
      · exact hlt
      · exact Nat.lt_trans hlt (h3 d hd)
    · rename_i hlt
      refine cellsWf_cons.mpr ⟨h1, h2, fun d hd => ?_, ih h4 (fun d hd => hfree d (by simp [hd]))⟩
      rcases mem_insertCell.mp hd with rfl | hd
      · simp only at hlt ⊢; omega
      · exact h3 d hd

/-- A write inside the address space keeps the canonical form. -/
theorem Memory.wf_write {m : Memory} {a : Nat} (v : Byte) (h : Memory.wf m = true) (ha : a < 4096) :
    Memory.wf (Memory.write m a v) = true := by
  simp only [Memory.wf, Memory.write] at *
  split
  · exact cellsWf_drop a h
  · exact cellsWf_insert (cellsWf_drop a h) ha ‹_› (fun _ => ne_of_mem_dropCell)

/-- A block store inside the address space keeps the canonical form. -/
theorem Memory.wf_writeBlock {m : Memory} {base : Nat} {bs : List Byte} (h : Memory.wf m = true)
    (hr : base + bs.length ≤ 4096) : Memory.wf (Memory.writeBlock m base bs) = true := by
  induction bs generalizing m base with
  | nil => exact h
  | cons b bs ih =>
    simp only [List.length_cons] at hr
    exact ih (Memory.wf_write b h (by omega)) (by omega)

theorem blockInMemory_iff (base count : Nat) : blockInMemory base count = true ↔ base + count ≤ 4096 := by
  simp [blockInMemory, Config.memSize]

end Sys2Proof.Machine
end

