-- ==== Sys2Proof/Laws/Ops.lean ====
section
/-!
SUPPORT. One spec lemma for each shared operation of `Machine/Ops.lean` and `Machine/Operands.lean`: everything it can do, so
that proofs cite it instead of unfolding it.
-/

namespace Sys2Proof.Machine

/-! ### Register blocks (R186, R187) -/

/-- Loading a block writes registers and nothing else. -/
theorem State.loadV_eq (s : State) (first : Nat) (bs : List Byte) :
    s.loadV first bs = { s with v := (s.loadV first bs).v } := by
  induction bs generalizing s first with
  | nil => rfl
  | cons b bs ih => rw [State.loadV, ih]; rfl

/-- Which register a block load leaves with which value: byte k goes to register `first + k`. -/
theorem State.getV_loadV (s : State) (first : Nat) (bs : List Byte) (hfit : first + bs.length ≤ 16) (r : Reg) :
    (s.loadV first bs).getV r =
      if h : first ≤ r.val ∧ r.val < first + bs.length then bs[r.val - first]'(by omega) else s.getV r := by
  induction bs generalizing s first with
  | nil => rw [dif_neg (by simp)]; rfl
  | cons b bs ih =>
    simp only [List.length_cons] at hfit
    rw [State.loadV, ih _ _ (by omega)]
    have hr : (Fin.ofNat 16 first).val = first := Nat.mod_eq_of_lt (by omega)
    by_cases hin : first + 1 ≤ r.val ∧ r.val < first + 1 + bs.length
    · have e : r.val - first = (r.val - (first + 1)) + 1 := by omega
      rw [dif_pos hin, dif_pos (by simp only [List.length_cons]; omega)]
      simp only [e, List.getElem_cons_succ]
    · rw [dif_neg hin, State.getV_setV]
      by_cases he : r = Fin.ofNat 16 first
      · have hv : r.val = first := by rw [he, hr]
        rw [if_pos he, dif_pos (by simp only [List.length_cons]; omega)]
        simp [hv]
      · have hv : r.val ≠ first := fun h => he (Fin.ext (by rw [hr]; exact h))
        rw [if_neg he, dif_neg (by simp only [List.length_cons]; omega)]

@[simp] theorem State.blockV_length (s : State) (x : Reg) : (s.blockV x).length = x.val + 1 := by
  simp [State.blockV]

@[simp] theorem State.blockV_getElem (s : State) (x : Reg) (k : Nat) (h : k < (s.blockV x).length) :
    (s.blockV x)[k] = s.getV (Fin.ofNat 16 k) := by
  simp [State.blockV]

@[simp] theorem bcdDigits_length (b : Byte) : (bcdDigits b).length = 3 := rfl

/-! ### Call stack (R27) -/

/-- The slot a call stores to holds the pushed word, every other slot is as before. -/
theorem State.stack_push (s : State) (w : Word) (h : s.sp.val < 16) (k : Fin 16) :
    (s.push w h).stack[k] = if k.val = s.sp.val then w else s.stack[k] := by
  simp only [State.push_stack, Fin.getElem_fin, Vector.getElem_set, eq_comm]

/-- The slot a return pops holds 0, every other slot is as before. -/
theorem State.stack_pop (s : State) (k : Fin 16) :
    s.pop.stack[k] = if k.val = s.sp.val - 1 then 0 else s.stack[k] := by
  simp only [State.pop_stack, Fin.getElem_fin, Vector.getElem_set, eq_comm]

/-- Popping right after a push gives the pushed word. -/
@[simp] theorem State.top_push (s : State) (w : Word) (h : s.sp.val < 16) : (s.push w h).top = w := by
  simp [State.top]

/-! ### Framebuffer (R30, R122) -/

@[simp] theorem fbGet_clear (x y : Nat) : fbGet fbClear x y = false := by
  simp [fbGet, fbClear]

/-- A flip changes its own cell and no other; off the grid it changes nothing. -/
theorem fbGet_flip (fb : Framebuffer) (x y x' y' : Nat) :
    fbGet (fbFlip fb x y) x' y' =
      if x' = x ∧ y' = y ∧ x < 64 ∧ y < 32 then !fbGet fb x y else fbGet fb x' y' := by
  unfold fbFlip
  by_cases h : x < 64 ∧ y < 32
  · rw [dif_pos h]
    by_cases h' : x' < 64 ∧ y' < 32
    · by_cases hy : y' = y
      · subst hy
        by_cases hx : x' = x
        · subst hx; simp [fbGet, h]
        · simp [fbGet, h, h'.1, hx, Ne.symm hx]
      · simp [fbGet, h', hy, Ne.symm hy]
    · have hne : ¬ (x' = x ∧ y' = y ∧ x < 64 ∧ y < 32) := by omega
      simp [fbGet, h', hne]
  · rw [dif_neg h, if_neg (by omega)]

/-- Flipping a list of cells toggles a cell once per occurrence. -/
theorem fbGet_flipCells (fb : Framebuffer) (cells : List (Nat × Nat)) (x y : Nat) (hx : x < 64) (hy : y < 32) :
    fbGet (flipCells fb cells) x y = (fbGet fb x y ^^ decide (cells.count (x, y) % 2 = 1)) := by
  induction cells generalizing fb with
  | nil => simp [flipCells]
  | cons c cs ih =>
    rw [flipCells, ih, fbGet_flip]
    by_cases hc : c = (x, y)
    · subst hc
      have hn : ∀ n : Nat, decide ((n + 1) % 2 = 1) = !decide (n % 2 = 1) := by
        intro n; by_cases h : n % 2 = 1 <;> simp [h] <;> omega
      simp [hx, hy, hn]
    · have h1 : ¬ (x = c.1 ∧ y = c.2 ∧ c.1 < 64 ∧ c.2 < 32) := fun h => hc (Prod.ext h.1.symm h.2.1.symm)
      simp [h1, List.count_cons_of_ne hc]

/-- When no cell is listed twice, exactly the listed cells change. -/
theorem fbGet_flipCells_nodup (fb : Framebuffer) {cells : List (Nat × Nat)} (hn : cells.Nodup) (x y : Nat)
    (hx : x < 64) (hy : y < 32) :
    fbGet (flipCells fb cells) x y = (fbGet fb x y ^^ decide ((x, y) ∈ cells)) := by
  rw [fbGet_flipCells fb cells x y hx hy]
  by_cases hm : (x, y) ∈ cells
  · simp [hm, List.count_eq_one_of_mem hn hm]
  · simp [hm, List.count_eq_zero_of_not_mem hm]

theorem collides_iff (fb : Framebuffer) (cells : List (Nat × Nat)) :
    collides fb cells = true ↔ ∃ c ∈ cells, fbGet fb c.1 c.2 = true := by
  simp [collides]

theorem onScreen_iff (c : Nat × Nat) : onScreen c = true ↔ c.1 < 64 ∧ c.2 < 32 := by
  simp [onScreen, Config.fbWidth, Config.fbHeight]

/-- Two framebuffers that agree on every cell of the grid are equal. -/
theorem fb_ext {fb fb' : Framebuffer} (h : ∀ x y, x < 64 → y < 32 → fbGet fb x y = fbGet fb' x y) : fb = fb' := by
  apply Vector.ext
  intro y hy
  apply Vector.ext
  intro x hx
  simpa [fbGet, hx, hy] using h x y hx hy

/-! ### Sprites (R121, R122) -/

theorem mem_rowCells {x0 y : Nat} {b : Byte} {c : Nat × Nat} :
    c ∈ rowCells x0 y b ↔ ∃ k < 8, spriteBit b k = true ∧ c = (x0 + k, y) := by
  simp only [rowCells, List.mem_map, List.mem_filter, List.mem_range]
  constructor
  · rintro ⟨k, ⟨hk, hb⟩, rfl⟩; exact ⟨k, hk, hb, rfl⟩
  · rintro ⟨k, hk, hb, rfl⟩; exact ⟨k, ⟨hk, hb⟩, rfl⟩

/-- A cell is a target exactly when some set bit of some sprite row goes to it. -/
theorem mem_spriteCells {x0 y0 : Nat} {bs : List Byte} {c : Nat × Nat} :
    c ∈ spriteCells x0 y0 bs ↔
      ∃ k j, ∃ h : k < bs.length, j < 8 ∧ spriteBit (bs[k]'h) j = true ∧ c = (x0 + j, y0 + k) := by
  induction bs generalizing y0 with
  | nil => simp [spriteCells]
  | cons b bs ih =>
    rw [spriteCells, List.mem_append, mem_rowCells, ih]
    constructor
    · rintro (⟨j, hj, hb, rfl⟩ | ⟨k, j, hk, hj, hb, rfl⟩)
      · exact ⟨0, j, by simp, hj, by simpa using hb, by simp⟩
      · exact ⟨k + 1, j, by simpa using hk, hj, by simpa using hb, by simp; omega⟩
    · rintro ⟨k, j, hk, hj, hb, rfl⟩
      cases k with
      | zero => exact .inl ⟨j, hj, by simpa using hb, by simp⟩
      | succ k => exact .inr ⟨k, j, by simpa using hk, hj, by simpa using hb, by simp; omega⟩

/-- R122: each cell is the target of at most one bit of one DXYN. -/
theorem nodup_spriteCells (x0 y0 : Nat) (bs : List Byte) : (spriteCells x0 y0 bs).Nodup := by
  induction bs generalizing y0 with
  | nil => simp [spriteCells]
  | cons b bs ih =>
    rw [spriteCells, List.nodup_append]
    refine ⟨?_, ih (y0 + 1), ?_⟩
    · refine List.Nodup.map (fun a b h => ?_) (List.Nodup.filter _ List.nodup_range)
      simpa using h
    · rintro c hc d hd rfl
      obtain ⟨j, _, _, rfl⟩ := mem_rowCells.mp hc
      obtain ⟨k, j', _, _, _, h⟩ := mem_spriteCells.mp hd
      have := congrArg Prod.snd h
      simp at this
      omega

/-! ### Keys (R200, R203, R204) -/

@[simp] theorem State.mem_pressedKeys (s : State) (k : Key) : k ∈ s.pressedKeys ↔ s.key[k] = true := by
  simp [State.pressedKeys]

theorem chooseKey_nil (d : Nat) : chooseKey d [] = none := rfl

/-- Whatever the free value is, the choice among pressed keys is one of them. -/
theorem chooseKey_mem {d : Nat} {ks : List Key} (h : ks ≠ []) : ∃ k f, chooseKey d ks = some (k, f) ∧ k ∈ ks := by
  match ks, h with
  | [k], _ => exact ⟨k, false, rfl, by simp⟩
  | k :: l :: ks, _ =>
    have hlt : d % (k :: l :: ks).length < (k :: l :: ks).length := Nat.mod_lt _ (by simp)
    refine ⟨_, true, rfl, ?_⟩
    rw [List.getD_eq_getElem _ _ hlt]
    exact List.getElem_mem hlt

theorem keyExists_iff (x : Reg) (s : State) : keyExists x s = true ↔ (s.getV x).toNat < 16 := by
  simp [keyExists, Config.numKeys]

end Sys2Proof.Machine
end

