-- ==== Sys2Proof/Laws/Cycle.lean ====
section
/-!
SUPPORT. What one step can do, said once: the inversion of a successful step, and of a step that stops.
-/

namespace Sys2Proof.Machine

theorem fetchInRange_iff (s : State) : fetchInRange s = true ↔ s.pc.toNat ≤ 4094 := by
  rw [fetchInRange, blockInMemory_iff]; omega

/-- Decoding the fetched bytes is decoding the fetched word. -/
theorem decode_fetchBytes (s : State) :
    decode (fetchBytes s) =
      match decodeWord (fetchWord s) with
      | some i => .ok i
      | none => .error (.unrecognized (fetchWord s)) := rfl

theorem decode_fetchBytes_ok {s : State} {i : Instr} :
    decode (fetchBytes s) = .ok i ↔ decodeWord (fetchWord s) = some i := by
  rw [decode_fetchBytes]
  split <;> simp_all

theorem decode_fetchBytes_error {s : State} {e : DecodeError} :
    decode (fetchBytes s) = .error e ↔ decodeWord (fetchWord s) = none ∧ e = .unrecognized (fetchWord s) := by
  rw [decode_fetchBytes]
  cases decodeWord (fetchWord s) <;> simp [eq_comm]

/-- A successful step fetched and decoded an instruction, executed it with the latch written, and ticked; the state it leaves
is the outcome's. -/
theorem step_next_inv {s t : State} (h : step s = .next t) :
    fetchInRange s = true ∧ ∃ i u, decode (fetchBytes s) = .ok i ∧ exec i (s.setOpcode (fetchWord s)) = .next u ∧
      t = tick u ∧ afterStep s = t ∧ stepBeeps s = tickBeeps u := by
  unfold step afterStep stepBeeps at *
  unfold cycle at *
  split at h
  · rename_i hr
    refine ⟨hr, ?_⟩
    rw [if_pos hr]
    split at h
    · rename_i i hd
      unfold finishStep at h
      split at h
      · rename_i u he
        refine ⟨i, u, hd, he, ?_⟩
        simp only [Host.Outcome.next.injEq] at h
        simp [he, finishStep, h.symm]
      · simp [stepFailed] at h
      · simp at h
    · simp [stepFailed] at h
  · simp [stepFailed] at h

/-- A step that stops with a fault: the fetch was out of range, the word is unrecognized, or the instruction raised it; the
state left differs in `OPCODE` at most, and there is no beep. -/
theorem step_fault_inv {s : State} {r : Fault} (h : step s = .fault r) :
    (fetchInRange s = false ∧ r = .memoryOutOfRange ∧ afterStep s = s ∧ stepBeeps s = false) ∨
    (fetchInRange s = true ∧ afterStep s = s.setOpcode (fetchWord s) ∧ stepBeeps s = false ∧
      ((∃ e, decode (fetchBytes s) = .error e ∧ r = .unknownOpcode (fetchWord s) s.pc) ∨
        ∃ i, decode (fetchBytes s) = .ok i ∧ exec i (s.setOpcode (fetchWord s)) = .fault r)) := by
  unfold step afterStep stepBeeps at *
  unfold cycle at *
  split at h
  · rename_i hr
    right
    rw [if_pos hr]
    split at h
    · rename_i i hd
      unfold finishStep at h
      split at h
      · simp at h
      · rename_i r' he
        simp only [stepFailed, Host.Outcome.fault.injEq] at h
        subst h
        simp [hd, he, finishStep, stepFailed, hr]
      · simp at h
    · rename_i e hd
      simp only [stepFailed, Host.Outcome.fault.injEq] at h
      simp [hd, stepFailed, hr, h.symm]
  · rename_i hr
    left
    simp only [stepFailed, Host.Outcome.fault.injEq] at h
    simp [hr, stepFailed, h.symm]

end Sys2Proof.Machine
end

