-- ==== Sys2Proof/Laws/Decode.lean ====
section
/-!
SUPPORT. What each field of a word built by a layout is (`30_encoding.md` R81).
-/

namespace Sys2Proof

@[simp] theorem fieldFamily_layoutA (f : BitVec 4) (nnn : Addr12) : fieldFamily (layoutA f nnn) = f.toNat := by
  simp only [fieldFamily, layoutA, BitVec.extractLsb'_toNat, BitVec.toNat_append]
  have := nnn.isLt; have := f.isLt
  rw [Nat.shiftRight_eq_div_pow, ← Nat.shiftLeft_add_eq_or_of_lt nnn.isLt, Nat.shiftLeft_eq]; omega

@[simp] theorem fieldNNN_layoutA (f : BitVec 4) (nnn : Addr12) : fieldNNN (layoutA f nnn) = nnn := by
  apply BitVec.eq_of_toNat_eq
  simp only [fieldNNN, layoutA, BitVec.extractLsb'_toNat, BitVec.toNat_append]
  have := nnn.isLt; have := f.isLt
  rw [Nat.shiftRight_eq_div_pow, ← Nat.shiftLeft_add_eq_or_of_lt nnn.isLt, Nat.shiftLeft_eq]; omega

@[simp] theorem toNat_regBits (r : Fin 16) : (regBits r).toNat = r.val := by
  simp [regBits]

theorem layoutXK_toNat (f : BitVec 4) (x : Reg) (kk : Byte) :
    (layoutXK f x kk).toNat = f.toNat * 4096 + x.val * 256 + kk.toNat := by
  have := kk.isLt; have := f.isLt; have := x.isLt
  simp only [layoutXK, BitVec.toNat_append, toNat_regBits]
  rw [← Nat.shiftLeft_add_eq_or_of_lt (by omega), ← Nat.shiftLeft_add_eq_or_of_lt (by omega)]
  simp only [Nat.shiftLeft_eq]; omega

theorem layoutXY_toNat (f : BitVec 4) (x y : Reg) (n : BitVec 4) :
    (layoutXY f x y n).toNat = f.toNat * 4096 + x.val * 256 + y.val * 16 + n.toNat := by
  have := n.isLt; have := f.isLt; have := x.isLt; have := y.isLt
  simp only [layoutXY, BitVec.toNat_append, toNat_regBits]
  rw [← Nat.shiftLeft_add_eq_or_of_lt (by omega), ← Nat.shiftLeft_add_eq_or_of_lt (by omega),
    ← Nat.shiftLeft_add_eq_or_of_lt (by omega)]
  simp only [Nat.shiftLeft_eq]; omega

@[simp] theorem fieldFamily_layoutXK (f : BitVec 4) (x : Reg) (kk : Byte) : fieldFamily (layoutXK f x kk) = f.toNat := by
  have := kk.isLt; have := f.isLt; have := x.isLt
  simp only [fieldFamily, BitVec.extractLsb'_toNat, layoutXK_toNat, Nat.shiftRight_eq_div_pow]; omega

@[simp] theorem fieldX_layoutXK (f : BitVec 4) (x : Reg) (kk : Byte) : fieldX (layoutXK f x kk) = x := by
  have := kk.isLt; have := f.isLt; have := x.isLt
  apply Fin.ext
  simp only [fieldX, BitVec.extractLsb'_toNat, layoutXK_toNat, Nat.shiftRight_eq_div_pow]; omega

@[simp] theorem fieldNN_layoutXK (f : BitVec 4) (x : Reg) (kk : Byte) : fieldNN (layoutXK f x kk) = kk := by
  have := kk.isLt; have := f.isLt; have := x.isLt
  apply BitVec.eq_of_toNat_eq
  simp only [fieldNN, BitVec.extractLsb'_toNat, layoutXK_toNat, Nat.shiftRight_eq_div_pow]; omega

@[simp] theorem fieldFamily_layoutXY (f : BitVec 4) (x y : Reg) (n : BitVec 4) :
    fieldFamily (layoutXY f x y n) = f.toNat := by
  have := n.isLt; have := f.isLt; have := x.isLt; have := y.isLt
  simp only [fieldFamily, BitVec.extractLsb'_toNat, layoutXY_toNat, Nat.shiftRight_eq_div_pow]; omega

@[simp] theorem fieldX_layoutXY (f : BitVec 4) (x y : Reg) (n : BitVec 4) : fieldX (layoutXY f x y n) = x := by
  have := n.isLt; have := f.isLt; have := x.isLt; have := y.isLt
  apply Fin.ext
  simp only [fieldX, BitVec.extractLsb'_toNat, layoutXY_toNat, Nat.shiftRight_eq_div_pow]; omega

@[simp] theorem fieldY_layoutXY (f : BitVec 4) (x y : Reg) (n : BitVec 4) : fieldY (layoutXY f x y n) = y := by
  have := n.isLt; have := f.isLt; have := x.isLt; have := y.isLt
  apply Fin.ext
  simp only [fieldY, BitVec.extractLsb'_toNat, layoutXY_toNat, Nat.shiftRight_eq_div_pow]; omega

@[simp] theorem fieldN_layoutXY (f : BitVec 4) (x y : Reg) (n : BitVec 4) : (fieldN (layoutXY f x y n)).val = n.toNat := by
  have := n.isLt; have := f.isLt; have := x.isLt; have := y.isLt
  simp only [fieldN, BitVec.extractLsb'_toNat, layoutXY_toNat, Nat.shiftRight_eq_div_pow]; omega

/-- A word laid out in memory and read back is the word (R52). -/
theorem wordBytes_roundtrip (w : Word) :
    wordOfBytes (w.extractLsb' 8 8) (w.extractLsb' 0 8) = w := by
  apply BitVec.eq_of_toNat_eq
  have := w.isLt
  simp only [wordOfBytes, BitVec.toNat_append, BitVec.extractLsb'_toNat, Nat.shiftRight_eq_div_pow]
  rw [← Nat.shiftLeft_add_eq_or_of_lt (by omega), Nat.shiftLeft_eq]; omega

/-! ### The masks of R84, as arithmetic on the word -/

theorem eq_layoutXY (w : Word) : ∃ f n : BitVec 4, ∃ x y : Reg, w = layoutXY f x y n := by
  refine ⟨w.extractLsb' 12 4, w.extractLsb' 0 4, fieldX w, fieldY w, ?_⟩
  apply BitVec.eq_of_toNat_eq
  have := w.isLt
  simp only [layoutXY_toNat, fieldX, fieldY, BitVec.extractLsb'_toNat, Nat.shiftRight_eq_div_pow]
  omega

theorem layoutXY_and (f n g x' y' m : BitVec 4) (x y : Reg) :
    layoutXY f x y n &&& (g ++ x' ++ y' ++ m : BitVec 16) =
      ((f &&& g) ++ (regBits x &&& x') ++ (regBits y &&& y') ++ (n &&& m) : BitVec 16) := by
  unfold layoutXY
  exact (BitVec.and_append ..).trans
    (by congr 1; exact (BitVec.and_append ..).trans (by congr 1; exact BitVec.and_append ..))

theorem nibble_and_ones (f : BitVec 4) : f &&& 15#4 = f := by
  revert f; decide

/-- Mask F000 keeps the family. -/
theorem and_family_toNat (w : Word) : (w &&& 0xF000).toNat = w.toNat / 4096 * 4096 := by
  obtain ⟨f, n, x, y, rfl⟩ := eq_layoutXY w
  have e : (0xF000 : Word) = (0xF#4 ++ 0#4 ++ 0#4 ++ 0#4 : BitVec 16) := by decide
  have h : layoutXY f x y n &&& 0xF000 = layoutXY f 0 0 0 := by
    rw [e, layoutXY_and]; simp [nibble_and_ones, layoutXY, regBits]
  have := n.isLt; have := x.isLt; have := y.isLt
  rw [h, layoutXY_toNat, layoutXY_toNat]; simp; omega

/-- Mask F00F keeps the family and N. -/
theorem and_nibble_toNat (w : Word) : (w &&& 0xF00F).toNat = w.toNat / 4096 * 4096 + w.toNat % 16 := by
  obtain ⟨f, n, x, y, rfl⟩ := eq_layoutXY w
  have e : (0xF00F : Word) = (0xF#4 ++ 0#4 ++ 0#4 ++ 0xF#4 : BitVec 16) := by decide
  have h : layoutXY f x y n &&& 0xF00F = layoutXY f 0 0 n := by
    rw [e, layoutXY_and]; simp [nibble_and_ones, layoutXY, regBits]
  have := n.isLt; have := x.isLt; have := y.isLt
  rw [h, layoutXY_toNat, layoutXY_toNat]; simp; omega

/-- Mask F0FF keeps the family and NN. -/
theorem and_byte_toNat (w : Word) : (w &&& 0xF0FF).toNat = w.toNat / 4096 * 4096 + w.toNat % 256 := by
  obtain ⟨f, n, x, y, rfl⟩ := eq_layoutXY w
  have e : (0xF0FF : Word) = (0xF#4 ++ 0#4 ++ 0xF#4 ++ 0xF#4 : BitVec 16) := by decide
  have h : layoutXY f x y n &&& 0xF0FF = layoutXY f 0 y n := by
    rw [e, layoutXY_and]; simp [nibble_and_ones, layoutXY, regBits]
  have := n.isLt; have := x.isLt; have := y.isLt
  rw [h, layoutXY_toNat, layoutXY_toNat]; simp; omega

theorem layoutA_toNat (f : BitVec 4) (nnn : Addr12) : (layoutA f nnn).toNat = f.toNat * 4096 + nnn.toNat := by
  have := nnn.isLt; have := f.isLt
  simp only [layoutA, BitVec.toNat_append]
  rw [← Nat.shiftLeft_add_eq_or_of_lt nnn.isLt, Nat.shiftLeft_eq]

theorem fieldFamily_eq (w : Word) : fieldFamily w = w.toNat / 4096 := by
  have := w.isLt
  simp only [fieldFamily, BitVec.extractLsb'_toNat, Nat.shiftRight_eq_div_pow]; omega

theorem fieldN_eq (w : Word) : (fieldN w).val = w.toNat % 16 := by
  simp [fieldN, BitVec.extractLsb'_toNat]

theorem fieldNN_eq (w : Word) : (fieldNN w).toNat = w.toNat % 256 := by
  simp [fieldNN, BitVec.extractLsb'_toNat]

end Sys2Proof
end

