-- ==== Sys2Proof/Laws/Exec.lean ====
section
/-!
SUPPORT. The meanings that can stop, inverted once: when they answer a next state and which, and when they fault. (Every other
meaning answers one next state, by definition.)
-/

namespace Sys2Proof.Machine

variable {s t : State} {r : Fault}

/-- A meaning guarded by one check, inverted. -/
theorem guarded_next {b : Bool} {a : State} {f : Fault} :
    (if b = true then Host.Outcome.next a else raise f) = .next t ↔ b = true ∧ t = a := by
  cases b <;> simp [raise, eq_comm]

theorem guarded_fault {b : Bool} {a : State} {f : Fault} :
    (if b = true then Host.Outcome.next a else raise f) = .fault r ↔ b = false ∧ r = f := by
  cases b <;> simp [raise, eq_comm]

theorem blockInMemory_false (base count : Nat) : blockInMemory base count = false ↔ 4096 < base + count := by
  rw [← Bool.not_eq_true, blockInMemory_iff]; omega

theorem keyExists_false (x : Reg) (s : State) : keyExists x s = false ↔ 16 ≤ (s.getV x).toNat := by
  rw [← Bool.not_eq_true, keyExists_iff]; omega

theorem execRet_next : execRet s = .next t ↔ s.sp.val ≠ 0 ∧ t = s.pop.setPc (s.top + 2) := by
  unfold execRet raise
  split <;> simp_all [eq_comm]

theorem execRet_fault : execRet s = .fault r ↔ s.sp.val = 0 ∧ r = .stackUnderflow := by
  unfold execRet raise
  split <;> simp_all [eq_comm]

theorem execCallNnn_next {nnn : Addr12} :
    execCallNnn nnn s = .next t ↔ ∃ h : s.sp.val < 16, t = (s.push s.pc h).setPc (targetNnn nnn) := by
  unfold execCallNnn raise
  split <;> simp_all [eq_comm]

theorem execCallNnn_fault {nnn : Addr12} : execCallNnn nnn s = .fault r ↔ s.sp.val = 16 ∧ r = .stackOverflow := by
  have := s.sp.isLt
  unfold execCallNnn raise
  split
  · simp; omega
  · have : s.sp.val = 16 := by omega
    simp [this, eq_comm]

theorem execSkpVx_next {x : Reg} : execSkpVx x s = .next t ↔ (s.getV x).toNat < 16 ∧ t = s.skipIf (keyAt x s) := by
  unfold execSkpVx
  rw [guarded_next, keyExists_iff]

theorem execSkpVx_fault {x : Reg} : execSkpVx x s = .fault r ↔ 16 ≤ (s.getV x).toNat ∧ r = .keyIndexOutOfRange := by
  unfold execSkpVx
  rw [guarded_fault, keyExists_false]

theorem execSknpVx_next {x : Reg} :
    execSknpVx x s = .next t ↔ (s.getV x).toNat < 16 ∧ t = s.skipIf (!keyAt x s) := by
  unfold execSknpVx
  rw [guarded_next, keyExists_iff]

theorem execSknpVx_fault {x : Reg} : execSknpVx x s = .fault r ↔ 16 ≤ (s.getV x).toNat ∧ r = .keyIndexOutOfRange := by
  unfold execSknpVx
  rw [guarded_fault, keyExists_false]

theorem execLdBVx_next {x : Reg} :
    execLdBVx x s = .next t ↔ s.i.toNat + 3 ≤ 4096 ∧
      t = (s.setMem (Memory.writeBlock s.mem (baseAddr s) (bcdDigits (s.getV x)))).advance := by
  unfold execLdBVx
  rw [guarded_next, blockInMemory_iff]
  rfl

theorem execLdBVx_fault {x : Reg} : execLdBVx x s = .fault r ↔ 4096 < s.i.toNat + 3 ∧ r = .memoryOutOfRange := by
  unfold execLdBVx
  rw [guarded_fault, blockInMemory_false]
  rfl

theorem execLdMiVx_next {x : Reg} :
    execLdMiVx x s = .next t ↔ s.i.toNat + (x.val + 1) ≤ 4096 ∧
      t = (s.setMem (Memory.writeBlock s.mem (baseAddr s) (s.blockV x))).advance := by
  unfold execLdMiVx
  rw [guarded_next, blockInMemory_iff]
  rfl

theorem execLdMiVx_fault {x : Reg} :
    execLdMiVx x s = .fault r ↔ 4096 < s.i.toNat + (x.val + 1) ∧ r = .memoryOutOfRange := by
  unfold execLdMiVx
  rw [guarded_fault, blockInMemory_false]
  rfl

theorem execLdVxMi_next {x : Reg} :
    execLdVxMi x s = .next t ↔ s.i.toNat + (x.val + 1) ≤ 4096 ∧
      t = (s.loadV 0 (Memory.readBlock s.mem (baseAddr s) (x.val + 1))).advance := by
  unfold execLdVxMi
  rw [guarded_next, blockInMemory_iff]
  rfl

theorem execLdVxMi_fault {x : Reg} :
    execLdVxMi x s = .fault r ↔ 4096 < s.i.toNat + (x.val + 1) ∧ r = .memoryOutOfRange := by
  unfold execLdVxMi
  rw [guarded_fault, blockInMemory_false]
  rfl

/-- The state a successful DXYN leaves. -/
def drawn (x y : Reg) (n : Nib) (s : State) : State :=
  (((s.setFb (flipCells s.fb (drawTargets x y n s))).setV regF
    (flagByte (collides s.fb (drawTargets x y n s)))).setDraw true).advance

theorem execDrwVxVyN_next {x y : Reg} {n : Nib} :
    execDrwVxVyN x y n s = .next t ↔ s.i.toNat + spriteRows n ≤ 4096 ∧
      (∀ c ∈ drawTargets x y n s, c.1 < 64 ∧ c.2 < 32) ∧ t = drawn x y n s := by
  have hs : (drawTargets x y n s).all onScreen = true ↔ ∀ c ∈ drawTargets x y n s, c.1 < 64 ∧ c.2 < 32 := by
    simp only [List.all_eq_true, onScreen_iff]
  unfold execDrwVxVyN raise
  rw [← blockInMemory_iff, ← hs, baseAddr]
  by_cases h1 : blockInMemory s.i.toNat (spriteRows n) = true
  · by_cases h2 : (drawTargets x y n s).all onScreen = true
    · simp only [h1, h2, if_true, true_and, Host.Outcome.next.injEq, drawn, eq_comm]
    · simp [h1, h2]
  · simp [h1]

theorem execDrwVxVyN_fault {x y : Reg} {n : Nib} :
    execDrwVxVyN x y n s = .fault r ↔
      (4096 < s.i.toNat + spriteRows n ∧ r = .memoryOutOfRange) ∨
      (s.i.toNat + spriteRows n ≤ 4096 ∧ (∃ c ∈ drawTargets x y n s, ¬ (c.1 < 64 ∧ c.2 < 32)) ∧
        r = .framebufferOutOfRange) := by
  have hs : (drawTargets x y n s).all onScreen = true ↔ ¬ ∃ c ∈ drawTargets x y n s, ¬ (c.1 < 64 ∧ c.2 < 32) := by
    rw [List.all_eq_true]; push Not; simp only [onScreen_iff]
  unfold execDrwVxVyN raise
  rw [← Nat.not_le, ← blockInMemory_iff, baseAddr]
  by_cases h1 : blockInMemory s.i.toNat (spriteRows n) = true
  · by_cases h2 : (drawTargets x y n s).all onScreen = true
    · have h3 := hs.mp h2
      simp only [h1, h2, h3, if_true, not_true, false_and, and_false, or_self, reduceCtorEq]
    · have h3 := Classical.not_not.mp (fun h => h2 (hs.mpr h))
      simp only [h1, h2, h3, if_true, if_false, not_true, false_and, true_and, false_or, Host.Outcome.fault.injEq,
        eq_comm, Bool.false_eq_true]
  · simp [h1, eq_comm]

/-- FX0A: the waiting step leaves the state as it is; otherwise VX gets a pressed key, and a free value is counted when it was used. -/
theorem execLdVxK_cases (x : Reg) (s : State) :
    ((∀ k : Key, s.key[k] = false) ∧ execLdVxK x s = .next s) ∨
    (∃ k : Key, s.key[k] = true ∧ ∃ d, execLdVxK x s =
      .next ({ s.setV x (BitVec.ofNat 8 k.val) with draws := d } : State).advance) := by
  by_cases hp : s.pressedKeys = []
  · left
    refine ⟨fun k => ?_, by rw [execLdVxK, hp, chooseKey_nil]⟩
    have : ¬ k ∈ s.pressedKeys := by rw [hp]; simp
    simpa using this
  · right
    obtain ⟨k, f, hk, hm⟩ := chooseKey_mem (d := Config.keyPick s.draws) hp
    refine ⟨k, by simpa using hm, ?_⟩
    rw [execLdVxK, hk]
    cases f
    · exact ⟨s.draws, rfl⟩
    · exact ⟨s.draws + 1, rfl⟩

end Sys2Proof.Machine
end

