-- ==== Sys2Proof/Laws/PerInstr.lean ====
section
/-!
SUPPORT. Family `EncodingRow`: the word `encode` gives an instruction matches the row of R84's opcode map that bears the
instruction's mnemonic.
-/

namespace Sys2Proof.Laws.EncodingRow

/-- The instruction's word matches the row of its mnemonic. -/
def Statement (i : Instr) : Prop :=
  ∃ r ∈ opcodeRows, r.mnemonic = i.mnemonic ∧ r.matchesWord (encode i) = true

/-- A row fits a word when the masked word has the pattern's value. -/
theorem of_row {i : Instr} (r : OpcodeRow) (hr : r ∈ opcodeRows) (hm : r.mnemonic = i.mnemonic)
    (hw : (encode i &&& r.mask).toNat = r.pattern.toNat) : Statement i :=
  ⟨r, hr, hm, by simpa [OpcodeRow.matchesWord] using BitVec.eq_of_toNat_eq hw⟩

theorem familyA (f : BitVec 4) (nnn : Addr12) : (layoutA f nnn &&& 0xF000).toNat = f.toNat * 4096 := by
  have := nnn.isLt
  rw [and_family_toNat, layoutA_toNat]; omega

theorem familyXK (f : BitVec 4) (x : Reg) (kk : Byte) : (layoutXK f x kk &&& 0xF000).toNat = f.toNat * 4096 := by
  have := kk.isLt; have := x.isLt
  rw [and_family_toNat, layoutXK_toNat]; omega

theorem familyXY (f : BitVec 4) (x y : Reg) (n : BitVec 4) : (layoutXY f x y n &&& 0xF000).toNat = f.toNat * 4096 := by
  have := n.isLt; have := x.isLt; have := y.isLt
  rw [and_family_toNat, layoutXY_toNat]; omega

theorem nibbleXY (f : BitVec 4) (x y : Reg) (n : BitVec 4) :
    (layoutXY f x y n &&& 0xF00F).toNat = f.toNat * 4096 + n.toNat := by
  have := n.isLt; have := x.isLt; have := y.isLt
  rw [and_nibble_toNat, layoutXY_toNat]; omega

theorem byteXK (f : BitVec 4) (x : Reg) (kk : Byte) :
    (layoutXK f x kk &&& 0xF0FF).toNat = f.toNat * 4096 + kk.toNat := by
  have := kk.isLt; have := x.isLt
  rw [and_byte_toNat, layoutXK_toNat]; omega

theorem cls : Statement .cls :=
  of_row ⟨"CLS", 0xFFFF, 0x00E0⟩ (by decide) rfl (rfl)

theorem ret : Statement .ret :=
  of_row ⟨"RET", 0xFFFF, 0x00EE⟩ (by decide) rfl (rfl)

theorem jpNnn (nnn : Addr12) : Statement (.jpNnn nnn) :=
  of_row ⟨"JP_NNN", 0xF000, 0x1000⟩ (by decide) rfl (familyA _ _)

theorem callNnn (nnn : Addr12) : Statement (.callNnn nnn) :=
  of_row ⟨"CALL_NNN", 0xF000, 0x2000⟩ (by decide) rfl (familyA _ _)

theorem seVxNn (x : Reg) (nn : Byte) : Statement (.seVxNn x nn) :=
  of_row ⟨"SE_VX_NN", 0xF000, 0x3000⟩ (by decide) rfl (familyXK _ _ _)

theorem sneVxNn (x : Reg) (nn : Byte) : Statement (.sneVxNn x nn) :=
  of_row ⟨"SNE_VX_NN", 0xF000, 0x4000⟩ (by decide) rfl (familyXK _ _ _)

theorem seVxVy (x y : Reg) : Statement (.seVxVy x y) :=
  of_row ⟨"SE_VX_VY", 0xF00F, 0x5000⟩ (by decide) rfl (nibbleXY _ _ _ _)

theorem ldVxNn (x : Reg) (nn : Byte) : Statement (.ldVxNn x nn) :=
  of_row ⟨"LD_VX_NN", 0xF000, 0x6000⟩ (by decide) rfl (familyXK _ _ _)

theorem addVxNn (x : Reg) (nn : Byte) : Statement (.addVxNn x nn) :=
  of_row ⟨"ADD_VX_NN", 0xF000, 0x7000⟩ (by decide) rfl (familyXK _ _ _)

theorem ldVxVy (x y : Reg) : Statement (.ldVxVy x y) :=
  of_row ⟨"LD_VX_VY", 0xF00F, 0x8000⟩ (by decide) rfl (nibbleXY _ _ _ _)

theorem orVxVy (x y : Reg) : Statement (.orVxVy x y) :=
  of_row ⟨"OR_VX_VY", 0xF00F, 0x8001⟩ (by decide) rfl (nibbleXY _ _ _ _)

theorem andVxVy (x y : Reg) : Statement (.andVxVy x y) :=
  of_row ⟨"AND_VX_VY", 0xF00F, 0x8002⟩ (by decide) rfl (nibbleXY _ _ _ _)

theorem xorVxVy (x y : Reg) : Statement (.xorVxVy x y) :=
  of_row ⟨"XOR_VX_VY", 0xF00F, 0x8003⟩ (by decide) rfl (nibbleXY _ _ _ _)

theorem addVxVy (x y : Reg) : Statement (.addVxVy x y) :=
  of_row ⟨"ADD_VX_VY", 0xF00F, 0x8004⟩ (by decide) rfl (nibbleXY _ _ _ _)

theorem subVxVy (x y : Reg) : Statement (.subVxVy x y) :=
  of_row ⟨"SUB_VX_VY", 0xF00F, 0x8005⟩ (by decide) rfl (nibbleXY _ _ _ _)

theorem shrVx (x y : Reg) : Statement (.shrVx x y) :=
  of_row ⟨"SHR_VX", 0xF00F, 0x8006⟩ (by decide) rfl (nibbleXY _ _ _ _)

theorem subnVxVy (x y : Reg) : Statement (.subnVxVy x y) :=
  of_row ⟨"SUBN_VX_VY", 0xF00F, 0x8007⟩ (by decide) rfl (nibbleXY _ _ _ _)

theorem shlVx (x y : Reg) : Statement (.shlVx x y) :=
  of_row ⟨"SHL_VX", 0xF00F, 0x800E⟩ (by decide) rfl (nibbleXY _ _ _ _)

theorem sneVxVy (x y : Reg) : Statement (.sneVxVy x y) :=
  of_row ⟨"SNE_VX_VY", 0xF00F, 0x9000⟩ (by decide) rfl (nibbleXY _ _ _ _)

theorem ldINnn (nnn : Addr12) : Statement (.ldINnn nnn) :=
  of_row ⟨"LD_I_NNN", 0xF000, 0xA000⟩ (by decide) rfl (familyA _ _)

theorem jpV0Nnn (nnn : Addr12) : Statement (.jpV0Nnn nnn) :=
  of_row ⟨"JP_V0_NNN", 0xF000, 0xB000⟩ (by decide) rfl (familyA _ _)

theorem rndVxNn (x : Reg) (nn : Byte) : Statement (.rndVxNn x nn) :=
  of_row ⟨"RND_VX_NN", 0xF000, 0xC000⟩ (by decide) rfl (familyXK _ _ _)

theorem drwVxVyN (x y : Reg) (n : Nib) : Statement (.drwVxVyN x y n) :=
  of_row ⟨"DRW_VX_VY_N", 0xF000, 0xD000⟩ (by decide) rfl (familyXY _ _ _ _)

theorem skpVx (x : Reg) : Statement (.skpVx x) :=
  of_row ⟨"SKP_VX", 0xF0FF, 0xE09E⟩ (by decide) rfl (byteXK _ _ _)

theorem sknpVx (x : Reg) : Statement (.sknpVx x) :=
  of_row ⟨"SKNP_VX", 0xF0FF, 0xE0A1⟩ (by decide) rfl (byteXK _ _ _)

theorem ldVxDt (x : Reg) : Statement (.ldVxDt x) :=
  of_row ⟨"LD_VX_DT", 0xF0FF, 0xF007⟩ (by decide) rfl (byteXK _ _ _)

theorem ldVxK (x : Reg) : Statement (.ldVxK x) :=
  of_row ⟨"LD_VX_K", 0xF0FF, 0xF00A⟩ (by decide) rfl (byteXK _ _ _)

theorem ldDtVx (x : Reg) : Statement (.ldDtVx x) :=
  of_row ⟨"LD_DT_VX", 0xF0FF, 0xF015⟩ (by decide) rfl (byteXK _ _ _)

theorem ldStVx (x : Reg) : Statement (.ldStVx x) :=
  of_row ⟨"LD_ST_VX", 0xF0FF, 0xF018⟩ (by decide) rfl (byteXK _ _ _)

theorem addIVx (x : Reg) : Statement (.addIVx x) :=
  of_row ⟨"ADD_I_VX", 0xF0FF, 0xF01E⟩ (by decide) rfl (byteXK _ _ _)

theorem ldFVx (x : Reg) : Statement (.ldFVx x) :=
  of_row ⟨"LD_F_VX", 0xF0FF, 0xF029⟩ (by decide) rfl (byteXK _ _ _)

theorem ldBVx (x : Reg) : Statement (.ldBVx x) :=
  of_row ⟨"LD_B_VX", 0xF0FF, 0xF033⟩ (by decide) rfl (byteXK _ _ _)

theorem ldMiVx (x : Reg) : Statement (.ldMiVx x) :=
  of_row ⟨"LD_MI_VX", 0xF0FF, 0xF055⟩ (by decide) rfl (byteXK _ _ _)

theorem ldVxMi (x : Reg) : Statement (.ldVxMi x) :=
  of_row ⟨"LD_VX_MI", 0xF0FF, 0xF065⟩ (by decide) rfl (byteXK _ _ _)

end Sys2Proof.Laws.EncodingRow
end

