-- ==== Sys2Proof/Tests/Slice0.lean ====
section
/-!
SUPPORT. Tests of this model. Expected values come from the spec: the opcode map of `30_encoding.md` R84 for words, the vectors of
`95_test_vectors.md` (cited as L2.<table> #<row>, or S<n>) for steps. After them, one witness for each obligation that has hypotheses,
at a boundary value of each clause.
-/

namespace Sys2Proof.Tests

open Sys2Proof.Machine

/-! ### Helpers -/

/-- What `f` sees after one step that runs the word `w`, placed at PC, in state `s`; `none` if the step does not succeed. -/
def after {α : Type} (f : State → α) (w : Nat) (s : State) : Option α :=
  match step (s.withFetchWord 16 w) with
  | .next t => some (f t)
  | _ => none

/-- The fault of one step that runs the word `w`, placed at PC, in state `s`. -/
def faultOf (w : Nat) (s : State) : Option Fault :=
  match step (s.withFetchWord 16 w) with
  | .fault r => some r
  | _ => none

/-- The reset state with some registers set. -/
def withV : List (Reg × Byte) → State
  | [] => State.reset
  | (r, b) :: rest => (withV rest).setV r b

/-- The same with I set and bytes stored from I on. -/
def withMem (i : Word) (bytes : List Byte) (regs : List (Reg × Byte)) : State :=
  ((withV regs).setI i).setMem (Memory.writeBlock State.reset.mem i.toNat bytes)

/-- VX and VF, seen after a step. -/
def seeXF (x : Reg) (s : State) : Nat × Nat := ((s.getV x).toNat, (s.getV 15).toNat)

/-- Three bytes of memory from `a` on, seen after a step. -/
def seeMem (a : Nat) (s : State) : List Nat := (Memory.readBlock s.mem a 3).map (·.toNat)

/-- A state with the call stack holding `n` entries, all `w`. -/
def withStack (n : Fin 17) (w : Word) : State := { State.reset with sp := n, stack := Vector.replicate 16 w }

/-! ### WellFormed: ill-formed words are refused, one for each family that has a sub-selector (R85; L2.1 #2 to #8) -/

theorem test_wf_family0 : wordWf 0x00E1 = false ∧ wordWf 0x0123 = false ∧ wordWf 0x0000 = false := by decide
theorem test_wf_family5 : wordWf 0x5121 = false ∧ wordWf 0x512F = false := by decide
theorem test_wf_family8 : wordWf 0x8128 = false ∧ wordWf 0x812D = false ∧ wordWf 0x812F = false := by decide
theorem test_wf_family9 : wordWf 0x9AB8 = false ∧ wordWf 0x9AB1 = false := by decide
theorem test_wf_familyE : wordWf 0xE19F = false ∧ wordWf 0xE1A0 = false ∧ wordWf 0xE000 = false := by decide
theorem test_wf_familyF : wordWf 0xF100 = false ∧ wordWf 0xF154 = false ∧ wordWf 0xFFFF = false := by decide
theorem test_wf_accepts : wordWf 0x00EE = true ∧ wordWf 0x5120 = true ∧ wordWf 0x81FE = true ∧ wordWf 0xFF65 = true := by
  decide
theorem test_wf_rows : opcodeRows.length = 34 := by decide

/-! ### Decoding: a word of every row of R84, written out field by field -/

theorem test_decode_display :
    decodeTableWord 16 0b0000_0000_1110_0000 = some .cls ∧
    decodeTableWord 16 0b1101_0010_0011_0001 = some (.drwVxVyN 2 3 1) := by decide

theorem test_decode_flow :
    decodeTableWord 16 0b0000_0000_1110_1110 = some .ret ∧
    decodeTableWord 16 0b0001_1010_1011_1100 = some (.jpNnn 0xABC) ∧
    decodeTableWord 16 0b0010_0010_0000_1010 = some (.callNnn 0x20A) ∧
    decodeTableWord 16 0b1011_0010_0000_0100 = some (.jpV0Nnn 0x204) ∧
    decodeTableWord 16 0b0011_1010_0000_0101 = some (.seVxNn 10 0x05) ∧
    decodeTableWord 16 0b0100_1010_0000_0110 = some (.sneVxNn 10 0x06) ∧
    decodeTableWord 16 0b0101_1010_1011_0000 = some (.seVxVy 10 11) ∧
    decodeTableWord 16 0b1001_1010_1011_0000 = some (.sneVxVy 10 11) := by decide

theorem test_decode_alu :
    decodeTableWord 16 0b0110_1010_0111_1111 = some (.ldVxNn 10 0x7F) ∧
    decodeTableWord 16 0b0111_0011_1111_1111 = some (.addVxNn 3 0xFF) ∧
    decodeTableWord 16 0b1000_0001_0010_0000 = some (.ldVxVy 1 2) ∧
    decodeTableWord 16 0b1000_0001_0010_0001 = some (.orVxVy 1 2) ∧
    decodeTableWord 16 0b1000_0001_0010_0010 = some (.andVxVy 1 2) ∧
    decodeTableWord 16 0b1000_0001_0010_0011 = some (.xorVxVy 1 2) ∧
    decodeTableWord 16 0b1000_0001_0010_0100 = some (.addVxVy 1 2) ∧
    decodeTableWord 16 0b1000_0001_0010_0101 = some (.subVxVy 1 2) ∧
    decodeTableWord 16 0b1000_0001_0010_0110 = some (.shrVx 1 2) ∧
    decodeTableWord 16 0b1000_0001_0010_0111 = some (.subnVxVy 1 2) ∧
    decodeTableWord 16 0b1000_0001_0010_1110 = some (.shlVx 1 2) ∧
    decodeTableWord 16 0b1100_0011_0000_1111 = some (.rndVxNn 3 0x0F) := by decide

theorem test_decode_index :
    decodeTableWord 16 0b1010_1111_1111_1111 = some (.ldINnn 0xFFF) ∧
    decodeTableWord 16 0b1111_0100_0001_1110 = some (.addIVx 4) ∧
    decodeTableWord 16 0b1111_0100_0010_1001 = some (.ldFVx 4) ∧
    decodeTableWord 16 0b1111_0100_0011_0011 = some (.ldBVx 4) ∧
    decodeTableWord 16 0b1111_0010_0101_0101 = some (.ldMiVx 2) ∧
    decodeTableWord 16 0b1111_0010_0110_0101 = some (.ldVxMi 2) := by decide

theorem test_decode_keypad_timers :
    decodeTableWord 16 0b1110_0101_1001_1110 = some (.skpVx 5) ∧
    decodeTableWord 16 0b1110_0101_1010_0001 = some (.sknpVx 5) ∧
    decodeTableWord 16 0b1111_0001_0000_1010 = some (.ldVxK 1) ∧
    decodeTableWord 16 0b1111_0011_0000_0111 = some (.ldVxDt 3) ∧
    decodeTableWord 16 0b1111_0000_0001_0101 = some (.ldDtVx 0) ∧
    decodeTableWord 16 0b1111_0000_0001_1000 = some (.ldStVx 0) := by decide

theorem test_decode_rejects_by_name :
    decode [0x00, 0xE1] = .error (.unrecognized 0x00E1) ∧ decode [0xFF, 0xFF, 0x00] = .error (.unrecognized 0xFFFF) ∧
    decode [0x12] = .error .truncated ∧ decode [] = .error .truncated := by decide

/-! ### The step (L2.1; S10) -/

/-- L2.1 #1. -/
theorem test_step_after_reset : step State.reset = .fault (.unknownOpcode 0x0000 0x200) := rfl
/-- L2.1 #4. -/
theorem test_step_unknown : faultOf 0x5121 State.reset = some (.unknownOpcode 0x5121 0x200) := by decide
/-- L2.1 #9: big-endian fetch. -/
theorem test_step_big_endian :
    after (fun t => (t.getV 1, t.opcode, t.pc)) 0x612A State.reset = some (0x2A, 0x612A, 0x202) := by decide
/-- L2.1 #10: an odd PC. -/
theorem test_step_odd_pc : after (fun t => (t.getV 1, t.pc)) 0x612A (State.reset.setPc 0x203) = some (0x2A, 0x205) := by
  decide
/-- L2.1 #12. -/
theorem test_step_fetch_range : step (State.reset.setPc 0xFFF) = .fault .memoryOutOfRange := rfl
/-- S10: no tick and no beep after a failure; only OPCODE changes. -/
theorem test_step_failure_state :
    (let s := ((State.reset.setDt 5).setSt 1).withFetchWord 16 0xFFFF
     ((afterStep s).dt, (afterStep s).st, stepBeeps s, (afterStep s).opcode, (afterStep s).pc)) =
      (5, 1, false, 0xFFFF, 0x200) := by decide
/-- L2.6 #24. -/
theorem test_step_tick :
    after (fun t => (t.dt, t.st)) 0x1200 ((State.reset.setDt 2).setSt 2) = some (1, 1) ∧
    stepBeeps (((State.reset.setDt 1).setSt 1).withFetchWord 16 0x1200) = true := by decide

/-! ### Display (L2.2) -/

/-- #1. -/
theorem test_cls :
    after (fun t => (fbGet t.fb 3 4, t.draw)) 0x00E0 ((State.reset.setFb (fbFlip fbClear 3 4)).setDraw false) =
      some (false, true) := by decide
/-- #6: partial overlap. -/
theorem test_drw_overlap :
    after (fun t => (fbGet t.fb 10 5, fbGet t.fb 11 5, t.getV 15)) 0xD010
      ((withMem 0x300 [0xC0] [(0, 0x0A), (1, 0x05)]).setFb (fbFlip fbClear 11 5)) = some (true, false, 1) := by decide
/-- #17 and #11: the coordinate is the old VF; a set bit in row 32. -/
theorem test_drw_old_vf_and_edge :
    after (fun t => (fbGet t.fb 5 2, t.getV 15)) 0xDF10 (withMem 0x300 [0x80] [(15, 5), (1, 2)]) = some (true, 0) ∧
    faultOf 0xD011 (withMem 0x300 [0x80, 0x80] [(1, 0x1F)]) = some .framebufferOutOfRange := by decide

/-! ### Control flow (L2.3) -/

/-- #8. -/
theorem test_ret :
    after (fun t => (t.sp.val, t.pc, t.stack[0])) 0x00EE (withStack 1 0xABC) = some (0, 0xABE, 0) := by decide
/-- #9. -/
theorem test_ret_empty : faultOf 0x00EE State.reset = some .stackUnderflow := by decide
/-- #3. -/
theorem test_jp : after (·.pc) 0x1FFF State.reset = some 0xFFF := by decide
/-- #5. -/
theorem test_call_last_slot :
    after (fun t => (t.stack[15], t.sp.val, t.pc)) 0x2300 (withStack 15 0) = some (0x200, 16, 0x300) := by decide
/-- #6. -/
theorem test_call_full : faultOf 0x2300 (withStack 16 0) = some .stackOverflow := by decide
/-- #12. -/
theorem test_jp_v0 : after (·.pc) 0xBFFF (withV [(0, 0xFF)]) = some 0x10FE := by decide
/-- #14, #15. -/
theorem test_se_nn :
    after (·.pc) 0x3A05 (withV [(10, 5)]) = some 0x204 ∧ after (·.pc) 0x3A06 (withV [(10, 5)]) = some 0x202 := by decide
/-- #16, #17. -/
theorem test_sne_nn :
    after (·.pc) 0x4A05 (withV [(10, 5)]) = some 0x202 ∧ after (·.pc) 0x4A06 (withV [(10, 5)]) = some 0x204 := by decide
/-- #18, #19. -/
theorem test_se_vy :
    after (·.pc) 0x5AB0 (withV [(10, 5), (11, 5)]) = some 0x204 ∧
    after (·.pc) 0x5AB0 (withV [(10, 5), (11, 6)]) = some 0x202 := by decide
/-- #21, #22. -/
theorem test_sne_vy :
    after (·.pc) 0x9AB0 (withV [(10, 5), (11, 6)]) = some 0x204 ∧
    after (·.pc) 0x9AB0 (withV [(10, 5), (11, 5)]) = some 0x202 := by decide

/-! ### Arithmetic and logic (L2.4) -/

/-- #1. -/
theorem test_ld_nn : after (seeXF 10) 0x6A7F (withV [(15, 0x33)]) = some (0x7F, 0x33) := by decide
/-- #3, S3. -/
theorem test_add_nn : after (seeXF 3) 0x7301 (withV [(3, 0xFF), (15, 0x5A)]) = some (0, 0x5A) := by decide
/-- #6. -/
theorem test_ld_vy : after (seeXF 1) 0x8120 (withV [(1, 0x11), (2, 0x22), (15, 0x77)]) = some (0x22, 0x77) := by decide
/-- #7. -/
theorem test_or : after (seeXF 1) 0x8121 (withV [(1, 0x0F), (2, 0xF0), (15, 0x77)]) = some (0xFF, 0x77) := by decide
/-- #8. -/
theorem test_and : after (seeXF 1) 0x8122 (withV [(1, 0x3C), (2, 0x0F), (15, 0x77)]) = some (0x0C, 0x77) := by decide
/-- #9. -/
theorem test_xor : after (seeXF 1) 0x8123 (withV [(1, 0xFF), (2, 0x0F), (15, 0x77)]) = some (0xF0, 0x77) := by decide
/-- #11, #14. -/
theorem test_add :
    after (seeXF 0) 0x8014 (withV [(0, 0xFF), (1, 0x01)]) = some (0, 1) ∧
    after (seeXF 0) 0x8014 (withV [(0, 0x80), (1, 0x7F), (15, 0x55)]) = some (0xFF, 0) := by decide
/-- #16, #18, #20. -/
theorem test_add_vf :
    after (seeXF 15) 0x8F14 (withV [(15, 0xFF), (1, 3)]) = some (4, 4) ∧
    after (seeXF 1) 0x81F4 (withV [(1, 0xF0), (15, 0x20)]) = some (0xF1, 1) ∧
    after (seeXF 15) 0x8FF4 (withV [(15, 0x80)]) = some (2, 2) := by decide
/-- #22, #24. -/
theorem test_sub :
    after (seeXF 0) 0x8015 (withV [(0, 1), (1, 2)]) = some (0xFF, 0) ∧
    after (seeXF 0) 0x8015 (withV [(0, 5), (1, 5)]) = some (0, 1) := by decide
/-- #26, #29, #30. -/
theorem test_sub_vf :
    after (seeXF 15) 0x8F15 (withV [(15, 5), (1, 3)]) = some (0xFE, 0xFE) ∧
    after (seeXF 1) 0x81F5 (withV [(1, 0x30), (15, 0x20)]) = some (0x2F, 1) ∧
    after (seeXF 15) 0x8FF5 (withV [(15, 0x9A)]) = some (0, 0) := by decide
/-- #33, #35. -/
theorem test_shr :
    after (seeXF 0) 0x8016 (withV [(0, 0xFF)]) = some (0x7F, 1) ∧
    after (seeXF 0) 0x8026 (withV [(0, 5), (2, 0xF0)]) = some (2, 1) := by decide
/-- #36. -/
theorem test_shr_vf : after (seeXF 15) 0x8F16 (withV [(15, 3)]) = some (0, 0) := by decide
/-- #39, #40. -/
theorem test_subn :
    after (seeXF 0) 0x8017 (withV [(0, 2), (1, 1)]) = some (0xFF, 0) ∧
    after (seeXF 0) 0x8017 (withV [(0, 5), (1, 5)]) = some (0, 1) := by decide
/-- #42, #43, #45. -/
theorem test_subn_vf :
    after (seeXF 15) 0x8F17 (withV [(15, 2), (1, 3)]) = some (2, 2) ∧
    after (seeXF 1) 0x81F7 (withV [(1, 0x10), (15, 0x20)]) = some (0xF1, 1) ∧
    after (seeXF 15) 0x8FF7 (withV [(15, 0x9A)]) = some (0, 0) := by decide
/-- #48, #50. -/
theorem test_shl :
    after (seeXF 0) 0x801E (withV [(0, 0xFF)]) = some (0xFE, 1) ∧
    after (seeXF 0) 0x802E (withV [(0, 0x81), (2, 0x0F)]) = some (2, 1) := by decide
/-- #51. -/
theorem test_shl_vf : after (seeXF 15) 0x8F1E (withV [(15, 0x81)]) = some (2, 2) := by decide
/-- #54: with NN = 0 any draw gives 0; no other value of CXNN is fixed. -/
theorem test_rnd (t : State) (h : exec (.rndVxNn 3 0) (withV [(3, 0x77)]) = .next t) : t.getV 3 = 0 := by
  injection h with h
  subst h
  exact BitVec.and_zero

/-! ### Index register and memory (L2.5) -/

/-- #1. -/
theorem test_ld_i : after (·.i) 0xAFFF State.reset = some 0x0FFF := by decide
/-- #4, #5. -/
theorem test_add_i :
    after (fun t => (t.i, t.getV 15)) 0xF41E ((withV [(4, 1), (15, 0x55)]).setI 0x0FFF) = some (0x1000, 0x55) ∧
    after (·.i) 0xF41E ((withV [(4, 2)]).setI 0xFFFF) = some 1 := by decide
/-- #8, #9. -/
theorem test_ld_f :
    after (·.i) 0xF429 (withV [(4, 0x10)]) = some 0x50 ∧ after (·.i) 0xF429 (withV [(4, 0xFF)]) = some 0x4FB := by decide
/-- #16, #18. -/
theorem test_bcd :
    after (seeMem 0x300) 0xF433 (withMem 0x300 [] [(4, 254)]) = some [2, 5, 4] ∧
    after (seeMem 0xFFD) 0xF433 (withMem 0xFFD [] [(4, 99)]) = some [0, 9, 9] := by decide
/-- #19. -/
theorem test_bcd_range : faultOf 0xF433 (withMem 0xFFE [] [(4, 99)]) = some .memoryOutOfRange := by decide
/-- #20, #21. -/
theorem test_store :
    after (fun t => (seeMem 0x300 t, t.i)) 0xF155 (withMem 0x300 [1, 2, 3] [(0, 0xAA), (1, 0xBB)]) =
      some ([0xAA, 0xBB, 3], 0x300) := by decide
/-- #23, #24. -/
theorem test_store_range :
    after (fun t => Memory.read t.mem 0xFFF) 0xFF55 (withMem 0xFF0 [] [(15, 0x0F)]) = some 0x0F ∧
    faultOf 0xFF55 (withMem 0xFF1 [] []) = some .memoryOutOfRange := by decide
/-- #26. -/
theorem test_load :
    after (fun t => (t.getV 0, t.getV 1, t.getV 2, t.getV 3)) 0xF265 (withMem 0x400 [0x11, 0x22, 0x33, 0x44] [(3, 9)]) =
      some (0x11, 0x22, 0x33, 9) := by decide
/-- #29. -/
theorem test_load_range : faultOf 0xF165 (withMem 0xFFF [] []) = some .memoryOutOfRange := by decide

/-! ### Keypad and timers (L2.6) -/

/-- #1, #2. -/
theorem test_skp :
    after (·.pc) 0xE59E ((withV [(5, 7)]).setKey 7 true) = some 0x204 ∧
    after (·.pc) 0xE59E ((withV [(5, 7)]).setKey 8 true) = some 0x202 := by decide
/-- #5, #7. -/
theorem test_skp_range :
    faultOf 0xE59E (withV [(5, 0x10)]) = some .keyIndexOutOfRange ∧
    after (·.pc) 0xE59E ((withV [(5, 15)]).setKey 15 true) = some 0x204 := by decide
/-- #3, #4. -/
theorem test_sknp :
    after (·.pc) 0xE5A1 (withV [(5, 7)]) = some 0x204 ∧
    after (·.pc) 0xE5A1 ((withV [(5, 7)]).setKey 7 true) = some 0x202 := by decide
/-- #6. -/
theorem test_sknp_range : faultOf 0xE5A1 (withV [(5, 0xFF)]) = some .keyIndexOutOfRange := by decide
/-- #8, #12: waiting, with the tick. -/
theorem test_key_wait_none :
    after (fun t => (t.pc, t.getV 1, t.dt, t.st)) 0xF10A (((withV [(1, 0x33)]).setDt 4).setSt 1) =
      some (0x200, 0x33, 3, 0) := by decide
/-- #10. -/
theorem test_key_wait_one : after (fun t => (t.pc, t.getV 1)) 0xF10A (State.reset.setKey 15 true) = some (0x202, 0x0F) := by
  decide
/-- #14. -/
theorem test_ld_dt : after (fun t => (t.getV 3, t.dt)) 0xF307 (State.reset.setDt 0x2A) = some (0x2A, 0x29) := by decide
/-- #16, #18. -/
theorem test_set_dt :
    after (·.dt) 0xF015 (withV [(0, 5)]) = some 4 ∧ after (·.dt) 0xF015 (withV [(0, 1)]) = some 0 := by decide
/-- #20, #21. -/
theorem test_set_st :
    after (·.st) 0xF018 (withV [(0, 3)]) = some 2 ∧ stepBeeps ((withV [(0, 3)]).withFetchWord 16 0xF018) = false ∧
    stepBeeps ((withV [(0, 1)]).withFetchWord 16 0xF018) = true := by decide

/-! ### Reset, load, memory -/

/-- S1: `reset` from any state. -/
theorem test_reset_op :
    (let t := resetOp ((((withStack 2 0x300).setPc 0x3A2).setV 3 0x7F).setKey 4 true)
     (t.pc, t.getV 3, t.sp.val, t.stack[0], t.draw, t.key[4])) = (0x200, 0, 0, 0, true, false) := by decide
/-- S2: one byte loaded; the next address as it was. -/
theorem test_load_program :
    (let s := (loadProgram [0xAB] State.reset).1
     (Memory.read s.mem 0x200, Memory.read s.mem 0x201)) = (0xAB, 0x00) := by decide
/-- The memory after reset of a machine whose font table is all FF. -/
def otherFont : Memory := ⟨Vector.replicate 80 0xFF, []⟩
/-- The canonical form: writing the reset contents again lists nothing; cells are kept by rising address. -/
theorem test_memory_canonical :
    Memory.write (Memory.write otherFont 0x300 7) 0x300 0 = otherFont ∧
    (Memory.write (Memory.write otherFont 0x300 7) 0x2FF 9).cells = [(0x2FF, 9), (0x300, 7)] ∧
    Memory.write otherFont 79 0xFF = otherFont := by decide
/-- Lists of cells that are not in the canonical form are told so: out of order, listed twice, a reset value listed, an address beyond the
end. -/
theorem test_memory_wf :
    (Memory.wf { otherFont with cells := [(0x300, 7), (0x2FF, 9)] } = false) ∧
    (Memory.wf { otherFont with cells := [(0x300, 7), (0x300, 9)] } = false) ∧
    (Memory.wf { otherFont with cells := [(0x300, 0)] } = false) ∧
    (Memory.wf { otherFont with cells := [(79, 0xFF)] } = false) ∧
    (Memory.wf { otherFont with cells := [(4096, 1)] } = false) ∧
    (Memory.wf { otherFont with cells := [(79, 0), (4095, 7)] } = true) := by decide
/-- L2.5 #28 with the default table as a named hypothesis, and the same instruction on a machine with another table (R8). -/
theorem test_font_is_a_parameter :
    after (fun t => (t.getV 0, t.getV 1)) 0xF165 (State.resetWith defaultFontTable) = some (0xF0, 0x90) ∧
    after (fun t => (t.getV 0, t.getV 1)) 0xF165 (State.resetWith (Vector.replicate 80 0xFF)) = some (0xFF, 0xFF) := by
  decide

/-! ### Witnesses: the hypotheses of each obligation, met together -/

/-- A state at the last address a fetch can read, with a word placed there. -/
def atTop (w : Nat) (s : State) : State := (s.setPc 0xFFE).withFetchWord 16 w

theorem witness_EncodeOfDecodeIsTheWord : decodeWord 0xDFFF = some (.drwVxVyN 15 15 15) := by decide

theorem witness_RecognizedExactlyWhenOneRowMatches :
    decodeWord 0x8FFE = some (.shlVx 15 15) ∧ (⟨"SHL_VX", 0xF00F, 0x800E⟩ : OpcodeRow) ∈ opcodeRows ∧
    (0x8FFE : Word) &&& 0xF00F = 0x800E ∧ decodeWord 0x8FFF = none := by decide

theorem witness_StepRunsTheDecodedInstruction :
    (atTop 0x1200 State.reset).pc.toNat = 4094 ∧
    decode [Memory.read (atTop 0x1200 State.reset).mem 4094, Memory.read (atTop 0x1200 State.reset).mem 4095] =
      .ok (.jpNnn 0x200) := by decide

theorem witness_PlacedWordIsFetched : (State.reset.setPc 0xFFE).pc.toNat = 4094 := by decide

theorem witness_LatchHoldsTheFetchedWord :
    (atTop 0xFFFF State.reset).pc.toNat ≤ 4094 ∧ (afterStep (atTop 0xFFFF State.reset)).opcode.toNat = 0xFFFF ∧
    (afterStep (atTop 0x1200 State.reset)).opcode.toNat = 0x1200 := by decide

theorem witness_UnknownOpcodeExactlyWhenUnrecognized :
    (atTop 0x8FFF State.reset).pc.toNat ≤ 4094 ∧
    step (atTop 0x8FFF State.reset) = .fault (.unknownOpcode 0x8FFF 0xFFE) := ⟨by decide, rfl⟩

theorem witness_FetchBeyondMemoryStops : 4094 < (State.reset.setPc 0xFFF).pc.toNat := by decide

theorem witness_FailedStepChangesOnlyTheLatch : step State.reset = .fault (.unknownOpcode 0 0x200) := rfl

/-- A failure of each kind that a step can end in, to be met again. -/
theorem witness_SteppingAgainFailsTheSameWay :
    step State.reset = .fault (.unknownOpcode 0 0x200) ∧
    step (State.reset.setPc 0xFFF) = .fault .memoryOutOfRange ∧
    step ((withV [(5, 16)]).withFetchWord 16 0xE59E) = .fault .keyIndexOutOfRange := ⟨rfl, rfl, rfl⟩

/-- Each clause at the first value at which it holds (the last value at which it does not is in the tests above). -/
theorem witness_InstructionsFaultExactlyAsListed :
    exec .ret State.reset = .fault .stackUnderflow ∧
    exec (.callNnn 0x300) (withStack 16 0) = .fault .stackOverflow ∧
    exec (.skpVx 5) (withV [(5, 16)]) = .fault .keyIndexOutOfRange ∧
    exec (.ldBVx 4) (State.reset.setI 4094) = .fault .memoryOutOfRange ∧
    exec (.ldMiVx 1) (State.reset.setI 4095) = .fault .memoryOutOfRange ∧
    exec (.drwVxVyN 0 1 1) (State.reset.setI 4095) = .fault .memoryOutOfRange ∧
    exec (.drwVxVyN 0 1 0) (withMem 0x300 [0x01] [(0, 57)]) = .fault .framebufferOutOfRange ∧
    exec (.drwVxVyN 0 1 0) (withMem 0x300 [0x80] [(1, 32)]) = .fault .framebufferOutOfRange :=
  ⟨rfl, rfl, rfl, rfl, rfl, rfl, rfl, rfl⟩

/-- Every clause of the PC table has an instruction that succeeds, and the last clause a step that does not. -/
theorem witness_PcAfterEveryInstruction :
    (∃ t, exec (.jpNnn 0xFFF) State.reset = .next t) ∧ (∃ t, exec (.callNnn 0xFFF) (withStack 15 0) = .next t) ∧
    (∃ t, exec (.jpV0Nnn 0xFFF) (withV [(0, 0xFF)]) = .next t) ∧ (∃ t, exec .ret (withStack 16 0x200) = .next t) ∧
    (∃ t, exec (.seVxNn 15 0xFF) State.reset = .next t) ∧ (∃ t, exec (.sneVxNn 15 0xFF) State.reset = .next t) ∧
    (∃ t, exec (.seVxVy 15 0) State.reset = .next t) ∧ (∃ t, exec (.sneVxVy 15 0) State.reset = .next t) ∧
    (∃ t, exec (.skpVx 5) (withV [(5, 15)]) = .next t) ∧ (∃ t, exec (.sknpVx 5) (withV [(5, 15)]) = .next t) ∧
    (∃ t, exec (.ldVxK 1) State.reset = .next t) ∧ (∃ t, exec .cls State.reset = .next t) ∧
    step State.reset = .fault (.unknownOpcode 0 0x200) :=
  ⟨⟨_, rfl⟩, ⟨_, rfl⟩, ⟨_, rfl⟩, ⟨_, rfl⟩, ⟨_, rfl⟩, ⟨_, rfl⟩, ⟨_, rfl⟩, ⟨_, rfl⟩, ⟨_, rfl⟩, ⟨_, rfl⟩, ⟨_, rfl⟩, ⟨_, rfl⟩,
    rfl⟩

/-- A successful step and one that is not; the beep at ST = 1. -/
theorem witness_TickFollowsEverySuccess :
    (∃ t, step ((State.reset.setSt 1).withFetchWord 16 0x1200) = .next t) ∧
    stepBeeps ((State.reset.setSt 1).withFetchWord 16 0x1200) = true ∧
    step State.reset = .fault (.unknownOpcode 0 0x200) := ⟨⟨_, rfl⟩, by decide, rfl⟩

/-- Two steps of a jump to itself with both timers running. -/
theorem witness_TimersCountSuccessfulSteps :
    ∃ t, RunsTo (fun i => ∀ x, i ≠ .ldDtVx x) 2 (((State.reset.setDt 1).setSt 2).withFetchWord 16 0x1200) t ∧
      RunsTo (fun i => ∀ x, i ≠ .ldStVx x) 2 (((State.reset.setDt 1).setSt 2).withFetchWord 16 0x1200) t :=
  ⟨_, ⟨.jpNnn 0x200, _, rfl, by simp, rfl, .jpNnn 0x200, _, rfl, by simp, rfl, rfl⟩,
    ⟨.jpNnn 0x200, _, rfl, by simp, rfl, .jpNnn 0x200, _, rfl, by simp, rfl, rfl⟩⟩

/-- One step, and then the one that beeps, from ST = 2. -/
theorem witness_SoundTimerBeepsOnce :
    ∃ t u, RunsTo (fun i => ∀ x, i ≠ .ldStVx x) 1 ((State.reset.setSt 2).withFetchWord 16 0x1200) t ∧
      RunsTo (fun i => ∀ x, i ≠ .ldStVx x) 1 t u ∧ stepBeeps t = true :=
  ⟨_, _, ⟨.jpNnn 0x200, _, rfl, by simp, rfl, rfl⟩, ⟨.jpNnn 0x200, _, rfl, by simp, rfl, rfl⟩, by decide⟩

/-- A state with the invariant, one call deep, whose step succeeds. -/
theorem witness_StepKeepsTheInvariant :
    (State.reset.withFetchWord 16 0x2200).Inv ∧ ∃ t, step (State.reset.withFetchWord 16 0x2200) = .next t ∧ t.sp.val = 1 :=
  ⟨⟨by decide, by decide, by decide, by decide⟩, ⟨_, rfl, by decide⟩⟩

theorem witness_FontTableIsFixedForARun :
    (∃ t, step ((State.resetWith (Vector.replicate 80 0xFF)).withFetchWord 16 0xF355) = .next t) ∧
    ∃ r, step (State.resetWith (Vector.replicate 80 0xFF)) = .fault r := ⟨⟨_, rfl⟩, ⟨_, rfl⟩⟩

/-- The same contents at the first address above the font table, reached by two writes and by one. -/
theorem witness_EqualContentsAreEqualMemories :
    Memory.wf (Memory.write (Memory.write otherFont 80 7) 80 9) = true ∧ Memory.wf (Memory.write otherFont 80 9) = true ∧
    (Memory.write (Memory.write otherFont 80 7) 80 9).font = (Memory.write otherFont 80 9).font ∧
    ∀ a, a ≤ 4095 → Memory.read (Memory.write (Memory.write otherFont 80 7) 80 9) a =
      Memory.read (Memory.write otherFont 80 9) a :=
  ⟨by decide, by decide, rfl, fun a _ => by simp only [Memory.read_write]; split <;> rfl⟩

theorem witness_CallerKeepsTheInvariant : State.reset.Inv := ⟨by decide, by decide, by decide, by decide⟩

theorem witness_OnlyTheListedInstructionsWrite : ∃ t, exec (.ldMiVx 15) (State.reset.setI 0xFF0) = .next t := ⟨_, rfl⟩

theorem witness_OnlyFlagWritersTouchVF :
    ∃ t, exec (.addVxVy 0 1) (withV [(0, 0xFF), (1, 1)]) = .next t ∧
      t.getV 15 ≠ (withV [(0, 0xFF), (1, 1)]).getV 15 := ⟨_, rfl, by decide⟩

/-- The clause `resetOp`, from a changed state of a machine with another font table; the ends of the table. -/
theorem witness_ResetLeavesTheListedValues :
    (let s := (State.resetWith (Vector.replicate 80 0xFF)).setPc 0x3A2
     resetOp s = State.resetWith s.mem.font ∧ Memory.read (resetOp s).mem 79 = 0xFF ∧ Memory.read (resetOp s).mem 80 = 0) := by
  decide

theorem witness_LoadProgramCopiesOrFails :
    (List.replicate 3584 (0xAB : Byte)).length = 3584 ∧ (List.replicate 3583 (0xAB : Byte)).length < 3584 :=
  ⟨List.length_replicate, by rw [List.length_replicate]; decide⟩

theorem witness_FirstFetchIsTheProgramsFirstWord :
    ([] : List Byte).length < 3582 ∧ (List.replicate 3581 (0xAB : Byte)).length < 3582 :=
  ⟨by decide, by rw [List.length_replicate]; decide⟩

theorem witness_EndedRunOnlyTicks : EndedNormally (State.reset.withFetchWord 16 0x1200) :=
  ⟨0x200, by decide, rfl, by decide⟩

/-- A one-row sprite in the last byte of memory; no set bit, whatever the coordinates. -/
theorem witness_DrwXorsTheSpriteAndReportsCollision_memory :
    (State.reset.setI 4095).i.toNat + (0 : Nib).val ≤ 4095 ∧
    ∀ col row, SpriteBitAt 0 1 0 (State.reset.setI 4095) col row → col ≤ 63 ∧ row ≤ 31 := by
  refine ⟨by decide, ?_⟩
  rintro col row ⟨k, c, hk, hc, hcol, hrow, -⟩
  simp [State.reset, State.resetWith, State.setI, State.getV] at hk hcol hrow
  omega

/-- A set bit at the corner (63, 31), on a set cell, so that the collision clause applies; with that cell clear, the other one does. -/
theorem witness_DrwXorsTheSpriteAndReportsCollision_corner :
    (let s := withMem 0x300 [0x01] [(0, 56), (1, 31)]
     SpriteBitAt 0 1 0 s 63 31 ∧ (∀ col row, SpriteBitAt 0 1 0 s col row → col ≤ 63 ∧ row ≤ 31) ∧
      fbGet (s.setFb (fbFlip fbClear 63 31)).fb 63 31 = true ∧ fbGet s.fb 63 31 = false) := by
  refine ⟨⟨0, 7, by decide, by decide, rfl, rfl, by decide⟩, ?_, by decide, by decide⟩
  rintro col row ⟨k, c, hk, hc, hcol, hrow, -⟩
  have e0 : ((withMem 0x300 [0x01] [(0, 56), (1, 31)]).getV 0).toNat = 56 := by decide
  have e1 : ((withMem 0x300 [0x01] [(0, 56), (1, 31)]).getV 1).toNat = 31 := by decide
  have : k = 0 := by simpa using hk
  omega

/-- X = Y = 15 with VF = 0, where the first draw leaves the coordinate as it was; and X, Y other than 15. -/
theorem witness_DrawingTwiceRestoresTheFramebuffer :
    (∃ t u, exec (.drwVxVyN 15 15 0) (withMem 0x300 [0x80] []) = .next t ∧ t.getV 15 = 0 ∧
      exec (.drwVxVyN 15 15 0) t = .next u) ∧
    ∃ t u, exec (.drwVxVyN 2 3 1) (withMem 0x300 [0xFF, 0x81] [(2, 8), (3, 2)]) = .next t ∧ t.getV 2 = 8 ∧ t.getV 3 = 2 ∧
      exec (.drwVxVyN 2 3 1) t = .next u :=
  ⟨⟨_, _, rfl, by decide, rfl⟩, ⟨_, _, rfl, by decide, by decide, rfl⟩⟩

theorem witness_CallPushesItsOwnAddress :
    (0 : Fin 16).val = State.reset.sp.val ∧ (15 : Fin 16).val = (withStack 15 0).sp.val := by decide

theorem witness_ReturnPopsAndZeroesTheSlot :
    (0 : Fin 16).val + 1 = (withStack 1 0x204).sp.val ∧ (15 : Fin 16).val + 1 = (withStack 16 0x204).sp.val := by decide

theorem witness_CallThenReturnComesBack : State.reset.Inv ∧ ∃ t, exec (.callNnn 0x300) State.reset = .next t :=
  ⟨⟨by decide, by decide, by decide, by decide⟩, ⟨_, rfl⟩⟩

theorem witness_FlagTestsKeepTheirOperandOrder :
    (14 : Reg) ≠ 15 ∧ (∃ t, exec (.addVxVy 14 15) State.reset = .next t) ∧
    (∃ t, exec (.subVxVy 14 15) State.reset = .next t) ∧ ∃ t, exec (.subnVxVy 14 15) State.reset = .next t :=
  ⟨by decide, ⟨_, rfl⟩, ⟨_, rfl⟩, ⟨_, rfl⟩⟩

theorem witness_BcdStoresThreeDigits : (State.reset.setI 4093).i.toNat + 2 = 4095 := by decide

theorem witness_StoreRegistersWritesTheBlock : (State.reset.setI 0xFF0).i.toNat + (15 : Reg).val = 4095 := by decide

theorem witness_LoadRegistersReadsTheBlock : (State.reset.setI 4095).i.toNat + (0 : Reg).val = 4095 := by decide

theorem witness_StoredRegistersLoadBack :
    ∃ t, exec (.ldMiVx 15) (State.reset.setI 0xFF0) = .next t ∧ t.i = 0xFF0 := ⟨_, rfl, rfl⟩

/-- L2.5 #30, and at the top of memory. -/
theorem witness_StoredInstructionIsFetchedNext :
    (∃ t, exec (.ldMiVx 1) (State.reset.setI 0x202) = .next t) ∧ (State.reset.setI 0x202).i.toNat = State.reset.pc.toNat + 2 ∧
    ∃ t, exec (.ldMiVx 1) ((State.reset.setPc 0xFFC).setI 0xFFE) = .next t := ⟨⟨_, rfl⟩, by decide, ⟨_, rfl⟩⟩

theorem witness_KeySkipsFollowTheKey : (15 : Key).val = ((withV [(5, 15)]).getV 5).toNat := by decide

/-- No key down; one key down; two keys down. -/
theorem witness_KeyWaitTakesAPressedKey :
    (∀ k : Key, State.reset.key[k] = false) ∧ (∃ k : Key, (State.reset.setKey 15 true).key[k] = true) ∧
    ((State.reset.setKey 3 true).setKey 9 true).pressedKeys = [3, 9] := by decide

theorem witness_KeyWaitPollsWhileTimersRun :
    (atTop 0xF10A State.reset).pc.toNat ≤ 4094 ∧ decode (fetchBytes (atTop 0xF10A State.reset)) = .ok (.ldVxK 1) ∧
    ∀ k : Key, (atTop 0xF10A State.reset).key[k] = false := by decide

theorem witness_WrittenTimerTicksInTheSameStep :
    (atTop 0xF015 State.reset).pc.toNat ≤ 4094 ∧ decode (fetchBytes (atTop 0xF015 State.reset)) = .ok (.ldDtVx 0) ∧
    decode (fetchBytes (atTop 0xF018 State.reset)) = .ok (.ldStVx 0) := by decide

end Sys2Proof.Tests
end

section
/-!
PROOFS. Display (`41_display.md`), 00E0. Frames are built up one update at a time: each rule below extends a `ChangesOnly` by one
operation of `Machine/Ops.lean`, given that the elements this operation writes may change.
-/

namespace Sys2Proof.Machine

/-! ### Frame rules -/

theorem ChangesOnly.refl (p : Elem → Prop) (s : State) : ChangesOnly p s s := by
  intro e _
  cases e <;> rfl

section
variable {p : Elem → Prop} {s t : State}

theorem ChangesOnly.setFb (h : ChangesOnly p s t) (hp : ∀ x y, p (.fb x y)) (fb : Framebuffer) :
    ChangesOnly p s (t.setFb fb) := by
  intro e he
  have hs := h e he
  cases e
  case fb x y => exact absurd (hp x y) he
  all_goals exact hs

theorem ChangesOnly.setDraw (h : ChangesOnly p s t) (hp : p .draw) (b : Bool) : ChangesOnly p s (t.setDraw b) := by
  intro e he
  have hs := h e he
  cases e
  case draw => exact absurd hp he
  all_goals exact hs

theorem ChangesOnly.advance (h : ChangesOnly p s t) (hp : p .pc) : ChangesOnly p s t.advance := by
  intro e he
  have hs := h e he
  cases e
  case pc => exact absurd hp he
  all_goals exact hs

end

/-! ### 00E0 (R120) -/

theorem exec_cls (s : State) : exec .cls s = .next ((s.setFb fbClear).setDraw true).advance := rfl

/-- The frame of 00E0: in particular VF, I, memory, the timers and the stack stay. -/
theorem changesOnly_cls (s : State) :
    ChangesOnly (fun e => e = .draw ∨ e = .pc ∨ ∃ x y, e = .fb x y) s ((s.setFb fbClear).setDraw true).advance :=
  (((ChangesOnly.refl _ s).setFb (fun x y => .inr (.inr ⟨x, y, rfl⟩)) fbClear).setDraw (.inl rfl) true).advance
    (.inr (.inl rfl))

/-- Settles O32: the state 00E0 leaves reads 0 in every cell whatever it held before, and DRAW is set without a test (R120). -/
theorem clsClearsTheFramebuffer : Obligations.ClsClearsTheFramebuffer := by
  intro s
  refine ⟨_, exec_cls s, ?cells, ?draw, ?pc, changesOnly_cls s⟩
  case cells => exact fun x y _ _ => fbGet_clear x y
  case draw => simp only [State.advance_draw, State.setDraw_draw]
  case pc => simp only [State.advance_pc, State.setDraw_pc, State.setFb_pc]

end Sys2Proof.Machine
end

section
/-!
PROOFS. Control flow (`42_control_flow.md`): the jumps 1NNN and BNNN, and the four register skips. Each of the six leaves the state
it found with another PC, so one frame rule serves all of them.
-/

namespace Sys2Proof.Machine

/-! ### The frame of a PC write (R130) -/

theorem ChangesOnly.setPc {p : Elem → Prop} {s t : State} (h : ChangesOnly p s t) (hp : p .pc) (w : Word) :
    ChangesOnly p s (t.setPc w) := by
  intro e he
  have hs := h e he
  cases e
  case pc => exact absurd hp he
  all_goals exact hs

theorem changesOnly_setPc (s : State) (w : Word) : ChangesOnly (· = .pc) s (s.setPc w) :=
  (ChangesOnly.refl (· = .pc) s).setPc rfl w

theorem changesOnly_skipIf (s : State) (c : Bool) : ChangesOnly (· = .pc) s (s.skipIf c) :=
  changesOnly_setPc s _

/-! ### 1NNN and BNNN (R132, R135) -/

theorem exec_jpNnn (nnn : Addr12) (s : State) : exec (.jpNnn nnn) s = .next (s.setPc (targetNnn nnn)) := rfl

theorem exec_jpV0Nnn (nnn : Addr12) (s : State) : exec (.jpV0Nnn nnn) s = .next (s.setPc (targetV0 nnn s)) := rfl

theorem targetNnn_toNat (nnn : Addr12) : (targetNnn nnn).toNat = nnn.toNat :=
  BitVec.toNat_setWidth_of_le (by decide)

/-- A 12-bit address plus a byte does not wrap in a 16-bit word. -/
theorem targetV0_toNat (nnn : Addr12) (s : State) : (targetV0 nnn s).toNat = nnn.toNat + (s.getV 0).toNat := by
  have hn := nnn.isLt
  have hv := (s.getV 0).isLt
  rw [targetV0, BitVec.toNat_add, BitVec.toNat_setWidth_of_le (by decide), BitVec.toNat_setWidth_of_le (by decide)]
  exact Nat.mod_eq_of_lt (by omega)

theorem targetV0_le (nnn : Addr12) (s : State) : (targetV0 nnn s).toNat ≤ 0x10FE := by
  have hn := nnn.isLt
  have hv := (s.getV 0).isLt
  rw [targetV0_toNat]
  omega

/-- Settles O35: both jumps are one PC write; the bound is 0xFFF + 0xFF, far below the wrap of a word (R132, R135). -/
theorem jumpsSetPcOnly : Obligations.JumpsSetPcOnly := by
  intro nnn s
  refine ⟨⟨_, exec_jpNnn nnn s, ?jp, changesOnly_setPc s _⟩, ⟨_, exec_jpV0Nnn nnn s, ?sum, ?bound, changesOnly_setPc s _⟩⟩
  case jp => rw [State.setPc_pc, targetNnn_toNat]
  case sum => rw [State.setPc_pc, targetV0_toNat]
  case bound => rw [State.setPc_pc]; exact targetV0_le nnn s

/-! ### 3XNN, 4XNN, 5XY0, 9XY0 (R136 to R139) -/

section
variable (x y : Reg) (nn : Byte) (s : State)

theorem exec_seVxNn : exec (.seVxNn x nn) s = .next (s.skipIf (s.getV x == nn)) := rfl

theorem exec_sneVxNn : exec (.sneVxNn x nn) s = .next (s.skipIf (s.getV x != nn)) := rfl

theorem exec_seVxVy : exec (.seVxVy x y) s = .next (s.skipIf (s.getV x == s.getV y)) := rfl

theorem exec_sneVxVy : exec (.sneVxVy x y) s = .next (s.skipIf (s.getV x != s.getV y)) := rfl

end

/-- PC after a skip on equality of two bytes. -/
theorem State.skipIf_beq_pc (s : State) (a b : Byte) : (s.skipIf (a == b)).pc = s.pc + if a = b then 4 else 2 := by
  simp only [State.skipIf_pc, beq_iff_eq]

/-- PC after a skip on inequality of two bytes. -/
theorem State.skipIf_bne_pc (s : State) (a b : Byte) : (s.skipIf (a != b)).pc = s.pc + if a = b then 2 else 4 := by
  simp only [State.skipIf_pc, bne_iff_ne, ite_not]

/-- Settles O36: each of the four is a `skipIf`, on equality or on inequality of two bytes (R136 to R139). -/
theorem registerSkipsMovePcOnly : Obligations.RegisterSkipsMovePcOnly := by
  intro x y nn s
  refine ⟨?seNn, ?sneNn, ?seVy, ?sneVy⟩
  case seNn => exact ⟨_, exec_seVxNn x nn s, s.skipIf_beq_pc _ _, changesOnly_skipIf s _⟩
  case sneNn => exact ⟨_, exec_sneVxNn x nn s, s.skipIf_bne_pc _ _, changesOnly_skipIf s _⟩
  case seVy => exact ⟨_, exec_seVxVy x y s, s.skipIf_beq_pc _ _, changesOnly_skipIf s _⟩
  case sneVy => exact ⟨_, exec_sneVxVy x y s, s.skipIf_bne_pc _ _, changesOnly_skipIf s _⟩

end Sys2Proof.Machine
end

section
/-!
PROOFS. ALU (`43_alu.md`), the instructions without a flag: 6XNN, 7XNN and 8XY0 to 8XY3. Each of the six writes one byte to VX and
advances, so one lemma says what such an instruction leaves, and the proofs differ in the byte alone.
-/

namespace Sys2Proof.Machine

/-! ### The frame of a register write (R21) -/

theorem ChangesOnly.setV {p : Elem → Prop} {s t : State} {x : Reg} (h : ChangesOnly p s t) (hp : p (.v x)) (b : Byte) :
    ChangesOnly p s (t.setV x b) := by
  intro e he
  have hs := h e he
  cases e
  case v r =>
    have hr : r ≠ x := by rintro rfl; exact he hp
    exact (t.getV_setV_other hr b).trans hs
  all_goals exact hs

theorem changesOnly_setV_advance (s : State) (x : Reg) (b : Byte) :
    ChangesOnly (· ∈ [Elem.v x, Elem.pc]) s (s.setV x b).advance :=
  ((ChangesOnly.refl (· ∈ [Elem.v x, Elem.pc]) s).setV (by simp) b).advance (by simp)

/-- An instruction whose meaning is "VX becomes `b`, then PC advances" leaves `b` in VX, and nothing but VX and PC changes. -/
theorem exec_setV_advance_spec {i : Instr} {s : State} {x : Reg} {b : Byte} (h : exec i s = .next (s.setV x b).advance) :
    ∃ t, exec i s = .next t ∧ t.getV x = b ∧ t.pc = s.pc + 2 ∧ ChangesOnly (· ∈ [Elem.v x, Elem.pc]) s t := by
  refine ⟨_, h, ?vx, ?pc, changesOnly_setV_advance s x b⟩
  case vx => rw [State.getV_advance, State.getV_setV_same]
  case pc => rw [State.advance_pc, State.setV_pc]

/-! ### 6XNN, 7XNN, 8XY0, 8XY1, 8XY2, 8XY3 (R151 to R156) -/

section
variable (x y : Reg) (nn : Byte) (s : State)

theorem exec_ldVxNn : exec (.ldVxNn x nn) s = .next (s.setV x nn).advance := rfl

theorem exec_addVxNn : exec (.addVxNn x nn) s = .next (s.setV x (s.getV x + nn)).advance := rfl

theorem exec_ldVxVy : exec (.ldVxVy x y) s = .next (s.setV x (s.getV y)).advance := rfl

theorem exec_orVxVy : exec (.orVxVy x y) s = .next (s.setV x (s.getV x ||| s.getV y)).advance := rfl

theorem exec_andVxVy : exec (.andVxVy x y) s = .next (s.setV x (s.getV x &&& s.getV y)).advance := rfl

theorem exec_xorVxVy : exec (.xorVxVy x y) s = .next (s.setV x (s.getV x ^^^ s.getV y)).advance := rfl

end

/-- Settles O40: each of the five is one write of VX; the frame spares VF because VF is another register unless X = 15 (R151, R153
to R156). -/
theorem loadsAndLogicWriteVxOnly : Obligations.LoadsAndLogicWriteVxOnly := by
  intro x y nn s
  refine ⟨?ldNn, ?ldVy, ?or, ?and, ?xor⟩
  case ldNn => exact exec_setV_advance_spec (exec_ldVxNn x nn s)
  case ldVy => exact exec_setV_advance_spec (exec_ldVxVy x y s)
  case or => exact exec_setV_advance_spec (exec_orVxVy x y s)
  case and => exact exec_setV_advance_spec (exec_andVxVy x y s)
  case xor => exact exec_setV_advance_spec (exec_xorVxVy x y s)

/-- Settles O41: 7XNN is one write of VX, and a sum of bytes is taken mod 256 (R152). -/
theorem addImmediateWrapsWithoutFlag : Obligations.AddImmediateWrapsWithoutFlag := by
  intro x nn s
  obtain ⟨t, hexec, hvx, hpc, hframe⟩ := exec_setV_advance_spec (exec_addVxNn x nn s)
  have hsum : (t.getV x).toNat = ((s.getV x).toNat + nn.toNat) % 256 := by rw [hvx, BitVec.toNat_add]
  exact ⟨t, hexec, hsum, hpc, hframe⟩

end Sys2Proof.Machine
end

section
/-!
PROOFS. Index register (`44_index_memory.md`): ANNN, FX1E and FX29. Each of the three writes one word to I and advances, so one
lemma says what such an instruction leaves, and the proofs differ in the value of the word alone.
-/

namespace Sys2Proof.Machine

/-! ### The frame of a write of I (R180) -/

theorem ChangesOnly.setI {p : Elem → Prop} {s t : State} (h : ChangesOnly p s t) (hp : p .i) (w : Word) :
    ChangesOnly p s (t.setI w) := by
  intro e he
  have hs := h e he
  cases e
  case i => exact absurd hp he
  all_goals exact hs

theorem changesOnly_setI_advance (s : State) (w : Word) :
    ChangesOnly (· ∈ [Elem.i, Elem.pc]) s (s.setI w).advance :=
  ((ChangesOnly.refl (· ∈ [Elem.i, Elem.pc]) s).setI (by simp) w).advance (by simp)

/-- An instruction whose meaning is "I becomes `w`, then PC advances" leaves `w` in I, and nothing but I and PC changes. -/
theorem exec_setI_advance_spec {i : Instr} {s : State} {w : Word} {n : Nat} (h : exec i s = .next (s.setI w).advance)
    (hw : w.toNat = n) :
    ∃ t, exec i s = .next t ∧ t.i.toNat = n ∧ t.pc = s.pc + 2 ∧ ChangesOnly (· ∈ [Elem.i, Elem.pc]) s t := by
  refine ⟨_, h, ?i, ?pc, changesOnly_setI_advance s w⟩
  case i => rw [State.advance_i, State.setI_i, hw]
  case pc => rw [State.advance_pc, State.setI_pc]

/-! ### ANNN, FX1E, FX29 (R181, R182, R183) -/

section
variable (x : Reg) (nnn : Addr12) (s : State)

theorem exec_ldINnn : exec (.ldINnn nnn) s = .next (s.setI (targetNnn nnn)).advance := rfl

theorem exec_addIVx : exec (.addIVx x) s = .next (s.setI (s.i + offsetVx x s)).advance := rfl

theorem exec_ldFVx : exec (.ldFVx x) s = .next (s.setI (glyphAddr x s)).advance := rfl

theorem offsetVx_toNat : (offsetVx x s).toNat = (s.getV x).toNat :=
  BitVec.toNat_setWidth_of_le (by decide)

/-- Five times a byte does not wrap in a 16-bit word. -/
theorem glyphAddr_toNat : (glyphAddr x s).toNat = (s.getV x).toNat * 5 := by
  have hv := (s.getV x).isLt
  have hstride : glyphStride.toNat = 5 := rfl
  rw [glyphAddr, BitVec.toNat_mul, BitVec.toNat_setWidth_of_le (by decide), hstride]
  exact Nat.mod_eq_of_lt (by omega)

end

/-- Settles O48: each of the three is one write of I; a sum of words is taken mod 65536, while NNN and five times a byte fit in a
word as they are, and the frame spares VF (R181, R182, R183). -/
theorem indexInstructionsWriteIOnly : Obligations.IndexInstructionsWriteIOnly := by
  intro x nnn s
  have hsum : (s.i + offsetVx x s).toNat = (s.i.toNat + (s.getV x).toNat) % 65536 := by
    rw [BitVec.toNat_add, offsetVx_toNat]
  refine ⟨?ldI, ?addI, ?ldF⟩
  case ldI => exact exec_setI_advance_spec (exec_ldINnn nnn s) (targetNnn_toNat nnn)
  case addI => exact exec_setI_advance_spec (exec_addIVx x s) hsum
  case ldF => exact exec_setI_advance_spec (exec_ldFVx x s) (glyphAddr_toNat x s)

end Sys2Proof.Machine
end

section
/-!
PROOFS. Timers (`45_keypad_timers.md`): FX07, FX15 and FX18. FX07 is one write of VX, like the ALU's loads; FX15 and FX18 are one
write of a timer, whose frame rules stand here.
-/

namespace Sys2Proof.Machine

/-! ### The frame of a timer write (R29) -/

section
variable {p : Elem → Prop} {s t : State}

theorem ChangesOnly.setDt (h : ChangesOnly p s t) (hp : p .dt) (b : Byte) : ChangesOnly p s (t.setDt b) := by
  intro e he
  have hs := h e he
  cases e
  case dt => exact absurd hp he
  all_goals exact hs

theorem ChangesOnly.setSt (h : ChangesOnly p s t) (hp : p .st) (b : Byte) : ChangesOnly p s (t.setSt b) := by
  intro e he
  have hs := h e he
  cases e
  case st => exact absurd hp he
  all_goals exact hs

end

theorem changesOnly_setDt_advance (s : State) (b : Byte) :
    ChangesOnly (· ∈ [Elem.dt, Elem.pc]) s (s.setDt b).advance :=
  ((ChangesOnly.refl (· ∈ [Elem.dt, Elem.pc]) s).setDt (by simp) b).advance (by simp)

theorem changesOnly_setSt_advance (s : State) (b : Byte) :
    ChangesOnly (· ∈ [Elem.st, Elem.pc]) s (s.setSt b).advance :=
  ((ChangesOnly.refl (· ∈ [Elem.st, Elem.pc]) s).setSt (by simp) b).advance (by simp)

/-! ### FX07, FX15, FX18 (R205, R206, R207) -/

section
variable (x : Reg) (s : State)

theorem exec_ldVxDt : exec (.ldVxDt x) s = .next (s.setV x s.dt).advance := rfl

theorem exec_ldDtVx : exec (.ldDtVx x) s = .next (s.setDt (s.getV x)).advance := rfl

theorem exec_ldStVx : exec (.ldStVx x) s = .next (s.setSt (s.getV x)).advance := rfl

end

/-- Settles O57: FX07 is one write of VX, FX15 of DT and FX18 of ST; the tick is no part of the execute phase, so the byte moved is
the byte read (R205, R206, R207). -/
theorem timerInstructionsMoveOneByte : Obligations.TimerInstructionsMoveOneByte := by
  intro x s
  refine ⟨exec_setV_advance_spec (exec_ldVxDt x s),
    ⟨_, exec_ldDtVx x s, ?dt, ?dtPc, changesOnly_setDt_advance s _⟩,
    ⟨_, exec_ldStVx x s, ?st, ?stPc, changesOnly_setSt_advance s _⟩⟩
  case dt => rw [State.advance_dt, State.setDt_dt]
  case dtPc => rw [State.advance_pc, State.setDt_pc]
  case st => rw [State.advance_st, State.setSt_st]
  case stPc => rw [State.advance_pc, State.setSt_pc]

end Sys2Proof.Machine
end

section
/-!
PROOFS. Encoding (`30_encoding.md`). `decodeWord` after `encode` is read off field by field, by the laws of the layouts; `encode` after
`decodeWord` puts the fields back, because the decoder branches on exactly the fields a layout fixes. The rows of R84 are then tied to
the decoder through the word of an instruction.
-/

namespace Sys2Proof

/-! ### Decoding an encoded instruction (R83, R84) -/

theorem decodeWord_encode (i : Instr) : decodeWord (encode i) = some i := by
  cases i
  case cls | ret => rfl
  case jpNnn | callNnn | ldINnn | jpV0Nnn =>
    simp [encode, decodeWord]
  case seVxNn | sneVxNn | ldVxNn | addVxNn | rndVxNn =>
    simp [encode, decodeWord]
  case seVxVy | sneVxVy =>
    simp [encode, decodeWord, decodeFamily5, decodeFamily9]
  case ldVxVy | orVxVy | andVxVy | xorVxVy | addVxVy | subVxVy | shrVx | subnVxVy | shlVx =>
    simp [encode, decodeWord, decodeFamily8]
  case drwVxVyN x y n =>
    simp [encode, decodeWord, Fin.ext_iff]
  case skpVx | sknpVx =>
    simp [encode, decodeWord, decodeFamilyE]
  case ldVxDt | ldVxK | ldDtVx | ldStVx | addIVx | ldFVx | ldBVx | ldMiVx | ldVxMi =>
    simp [encode, decodeWord, decodeFamilyF]

/-- Two bytes laid out from a word decode as the word (R52). -/
theorem decode_wordBytes {w : Word} {i : Instr} (h : decodeWord w = some i) : decode (wordBytes w) = .ok i := by
  simp only [wordBytes, decode, wordBytes_roundtrip, h]

/-- Settles O1: by cases on the instruction, grouped by format; the bytes are the word laid out high byte first. -/
theorem decodeOfEncodeIsTheInstruction : Obligations.DecodeOfEncodeIsTheInstruction := by
  intro i
  have hword := decodeWord_encode i
  exact ⟨hword, decode_wordBytes hword⟩

/-! ### Encoding a decoded word: the fields of a word rebuild it (R81) -/

theorem layoutA_fields {w : Word} {f : BitVec 4} (hf : fieldFamily w = f.toNat) : layoutA f (fieldNNN w) = w := by
  apply BitVec.eq_of_toNat_eq
  rw [fieldFamily_eq] at hf
  rw [layoutA_toNat, fieldNNN, BitVec.extractLsb'_toNat, Nat.shiftRight_zero, ← hf]
  omega

theorem fieldX_eq (w : Word) : (fieldX w).val = w.toNat / 256 % 16 := by
  simp [fieldX, BitVec.extractLsb'_toNat, Nat.shiftRight_eq_div_pow]

theorem fieldY_eq (w : Word) : (fieldY w).val = w.toNat / 16 % 16 := by
  simp [fieldY, BitVec.extractLsb'_toNat, Nat.shiftRight_eq_div_pow]

theorem layoutXK_fields {w : Word} {f : BitVec 4} {kk : Byte} (hf : fieldFamily w = f.toNat)
    (hk : (fieldNN w).toNat = kk.toNat) : layoutXK f (fieldX w) kk = w := by
  apply BitVec.eq_of_toNat_eq
  rw [fieldFamily_eq] at hf
  rw [fieldNN_eq] at hk
  rw [layoutXK_toNat, fieldX_eq, ← hf, ← hk]
  omega

theorem layoutXY_fields {w : Word} {f n : BitVec 4} (hf : fieldFamily w = f.toNat) (hn : (fieldN w).val = n.toNat) :
    layoutXY f (fieldX w) (fieldY w) n = w := by
  apply BitVec.eq_of_toNat_eq
  rw [fieldFamily_eq] at hf
  rw [fieldN_eq] at hn
  rw [layoutXY_toNat, fieldX_eq, fieldY_eq, ← hf, ← hn]
  omega

section
variable {w : Word} {i : Instr}

theorem encode_of_decodeFamily0 (h : decodeFamily0 w = some i) : encode i = w := by
  unfold decodeFamily0 at h
  split at h
  · cases h; exact Eq.symm ‹_›
  · split at h <;> cases h
    exact Eq.symm ‹_›

theorem encode_of_decodeFamily5 (hf : fieldFamily w = 0x5) (h : decodeFamily5 w = some i) : encode i = w := by
  unfold decodeFamily5 at h
  split at h <;> cases h
  exact layoutXY_fields hf ‹_›

theorem encode_of_decodeFamily8 (hf : fieldFamily w = 0x8) (h : decodeFamily8 w = some i) : encode i = w := by
  unfold decodeFamily8 at h
  split at h <;> cases h
  all_goals exact layoutXY_fields hf ‹_›

theorem encode_of_decodeFamily9 (hf : fieldFamily w = 0x9) (h : decodeFamily9 w = some i) : encode i = w := by
  unfold decodeFamily9 at h
  split at h <;> cases h
  exact layoutXY_fields hf ‹_›

theorem encode_of_decodeFamilyE (hf : fieldFamily w = 0xE) (h : decodeFamilyE w = some i) : encode i = w := by
  unfold decodeFamilyE at h
  split at h <;> cases h
  all_goals exact layoutXK_fields hf ‹_›

theorem encode_of_decodeFamilyF (hf : fieldFamily w = 0xF) (h : decodeFamilyF w = some i) : encode i = w := by
  unfold decodeFamilyF at h
  split at h <;> cases h
  all_goals exact layoutXK_fields hf ‹_›

end

/-- Settles O2: in each branch of the decoder (`h_k` is that of family k - 1) the fields it fixed and the fields it read out make up the
whole word. -/
theorem encodeOfDecodeIsTheWord : Obligations.EncodeOfDecodeIsTheWord := by
  intro w i h
  unfold decodeWord at h
  split at h
  case h_1 => exact encode_of_decodeFamily0 h
  case h_6 hf => exact encode_of_decodeFamily5 hf h
  case h_9 hf => exact encode_of_decodeFamily8 hf h
  case h_10 hf => exact encode_of_decodeFamily9 hf h
  case h_14 hf => cases h; exact layoutXY_fields hf (toNat_regBits _).symm
  case h_15 hf => exact encode_of_decodeFamilyE hf h
  case h_16 hf => exact encode_of_decodeFamilyF hf h
  case h_17 => cases h
  case h_2 hf | h_3 hf | h_11 hf | h_12 hf => cases h; exact layoutA_fields hf
  case h_4 hf | h_5 hf | h_7 hf | h_8 hf | h_13 hf => cases h; exact layoutXK_fields hf rfl

/-! ### The rows of the opcode map (R83 to R86) -/

/-- The word of every instruction matches the row of its mnemonic. -/
theorem encodingRow (i : Instr) : Laws.EncodingRow.Statement i := by
  open Laws.EncodingRow in
  cases i with
  | cls => exact cls
  | ret => exact ret
  | jpNnn nnn => exact jpNnn nnn
  | callNnn nnn => exact callNnn nnn
  | seVxNn x nn => exact seVxNn x nn
  | sneVxNn x nn => exact sneVxNn x nn
  | seVxVy x y => exact seVxVy x y
  | ldVxNn x nn => exact ldVxNn x nn
  | addVxNn x nn => exact addVxNn x nn
  | ldVxVy x y => exact ldVxVy x y
  | orVxVy x y => exact orVxVy x y
  | andVxVy x y => exact andVxVy x y
  | xorVxVy x y => exact xorVxVy x y
  | addVxVy x y => exact addVxVy x y
  | subVxVy x y => exact subVxVy x y
  | shrVx x y => exact shrVx x y
  | subnVxVy x y => exact subnVxVy x y
  | shlVx x y => exact shlVx x y
  | sneVxVy x y => exact sneVxVy x y
  | ldINnn nnn => exact ldINnn nnn
  | jpV0Nnn nnn => exact jpV0Nnn nnn
  | rndVxNn x nn => exact rndVxNn x nn
  | drwVxVyN x y n => exact drwVxVyN x y n
  | skpVx x => exact skpVx x
  | sknpVx x => exact sknpVx x
  | ldVxDt x => exact ldVxDt x
  | ldVxK x => exact ldVxK x
  | ldDtVx x => exact ldDtVx x
  | ldStVx x => exact ldStVx x
  | addIVx x => exact addIVx x
  | ldFVx x => exact ldFVx x
  | ldBVx x => exact ldBVx x
  | ldMiVx x => exact ldMiVx x
  | ldVxMi x => exact ldVxMi x

/-- Two rows whose patterns agree where both masks look are one row: a closed fact about the 34 rows. -/
theorem opcodeRows_disjoint :
    ∀ r ∈ opcodeRows, ∀ r' ∈ opcodeRows, r.pattern &&& r'.mask = r'.pattern &&& r.mask → r = r' := by
  decide

/-- Two rows that match one word agree where both masks look. -/
theorem opcodeRow_unique {w : Word} {r r' : OpcodeRow} (hr : r ∈ opcodeRows) (hr' : r' ∈ opcodeRows)
    (h : w &&& r.mask = r.pattern) (h' : w &&& r'.mask = r'.pattern) : r = r' := by
  refine opcodeRows_disjoint r hr r' hr' ?_
  rw [← h, ← h', BitVec.and_assoc, BitVec.and_assoc, BitVec.and_comm r.mask]

section
variable {w p : Word}

theorem family_of_mask (h : w &&& 0xF000 = p) : fieldFamily w = p.toNat / 4096 := by
  rw [← h, and_family_toNat, fieldFamily_eq]; omega

theorem nibble_of_mask (h : w &&& 0xF00F = p) : fieldFamily w = p.toNat / 4096 ∧ (fieldN w).val = p.toNat % 16 := by
  rw [← h, and_nibble_toNat, fieldFamily_eq, fieldN_eq]; omega

theorem byte_of_mask (h : w &&& 0xF0FF = p) : fieldFamily w = p.toNat / 4096 ∧ (fieldNN w).toNat = p.toNat % 256 := by
  rw [← h, and_byte_toNat, fieldFamily_eq, fieldNN_eq]; omega

end

section
variable {w : Word} {r : OpcodeRow}

theorem decodes_of_addressRow (hr : r ∈ opcodeRowsAddress) (h : w &&& r.mask = r.pattern) : ∃ i, decodeWord w = some i := by
  simp only [opcodeRowsAddress, List.mem_cons, List.not_mem_nil, or_false] at hr
  rcases hr with rfl | rfl | rfl | rfl | rfl | rfl
  case inl | inr.inl =>
    have hw : w &&& BitVec.allOnes 16 = _ := h
    rw [BitVec.and_allOnes] at hw
    exact hw ▸ ⟨_, rfl⟩
  all_goals simp [decodeWord, family_of_mask h]

theorem decodes_of_familyRow (hr : r ∈ opcodeRowsFamily) (h : w &&& r.mask = r.pattern) : ∃ i, decodeWord w = some i := by
  simp only [opcodeRowsFamily, List.mem_cons, List.not_mem_nil, or_false] at hr
  rcases hr with rfl | rfl | rfl | rfl | rfl | rfl
  all_goals simp [decodeWord, family_of_mask h]

theorem decodes_of_nibbleRow (hr : r ∈ opcodeRowsNibble) (h : w &&& r.mask = r.pattern) : ∃ i, decodeWord w = some i := by
  simp only [opcodeRowsNibble, List.mem_cons, List.not_mem_nil, or_false] at hr
  rcases hr with rfl | rfl | rfl | rfl | rfl | rfl | rfl | rfl | rfl | rfl | rfl
  all_goals
    obtain ⟨hf, hn⟩ := nibble_of_mask h
    simp [decodeWord, hf, decodeFamily5, decodeFamily8, decodeFamily9, hn]

theorem decodes_of_byteRow (hr : r ∈ opcodeRowsByte) (h : w &&& r.mask = r.pattern) : ∃ i, decodeWord w = some i := by
  simp only [opcodeRowsByte, List.mem_cons, List.not_mem_nil, or_false] at hr
  rcases hr with rfl | rfl | rfl | rfl | rfl | rfl | rfl | rfl | rfl | rfl | rfl
  all_goals
    obtain ⟨hf, hk⟩ := byte_of_mask h
    simp [decodeWord, hf, decodeFamilyE, decodeFamilyF, hk]

/-- A word that a row of R84 matches is recognized. -/
theorem decodes_of_row (hr : r ∈ opcodeRows) (h : w &&& r.mask = r.pattern) : ∃ i, decodeWord w = some i := by
  simp only [opcodeRows, List.mem_append] at hr
  rcases hr with ((hr | hr) | hr) | hr
  · exact decodes_of_addressRow hr h
  · exact decodes_of_familyRow hr h
  · exact decodes_of_nibbleRow hr h
  · exact decodes_of_byteRow hr h

/-- A word that decodes matches the row of the instruction's mnemonic. -/
theorem row_of_decodes {i : Instr} (h : decodeWord w = some i) :
    ∃ r ∈ opcodeRows, r.mnemonic = i.mnemonic ∧ w &&& r.mask = r.pattern := by
  obtain ⟨r, hr, hname, hmatch⟩ := encodingRow i
  rw [encodeOfDecodeIsTheWord w i h] at hmatch
  exact ⟨r, hr, hname, by simpa [OpcodeRow.matchesWord] using hmatch⟩

end

/-- Settles O3: a decoded word is the word of its instruction, which matches that instruction's row; no second row matches; and each
mask gives the decoder the fields its branch tests. -/
theorem recognizedExactlyWhenOneRowMatches : Obligations.RecognizedExactlyWhenOneRowMatches := by
  intro w
  refine ⟨⟨?recognized, ?matched⟩, ?unique, ?decoded⟩
  case recognized =>
    rintro ⟨i, h⟩
    obtain ⟨r, hr, -, hmatch⟩ := row_of_decodes h
    exact ⟨r, hr, hmatch⟩
  case matched =>
    rintro ⟨r, hr, hmatch⟩
    exact decodes_of_row hr hmatch
  case unique => exact fun r hr r' hr' => opcodeRow_unique hr hr'
  case decoded =>
    intro i h r hr hmatch
    obtain ⟨r', hr', hname, hmatch'⟩ := row_of_decodes h
    obtain rfl := opcodeRow_unique hr hr' hmatch hmatch'
    exact ⟨hname, encodeOfDecodeIsTheWord w i h⟩

/-- Settles O4: eleven closed words, run through the decoder. -/
theorem specWordsDecodeAsTheirRows : Obligations.SpecWordsDecodeAsTheirRows := by
  unfold Obligations.SpecWordsDecodeAsTheirRows
  decide

/-- Settles O5: the meanings of the two shifts do not take Y (R90). -/
theorem shiftsIgnoreY : Obligations.ShiftsIgnoreY :=
  fun _ _ _ _ => ⟨rfl, rfl⟩

end Sys2Proof
end

section
/-!
PROOFS. What an instruction can do (`10_state.md`, `40_step_cycle.md` section 6): when it faults, which elements it writes, how it
leaves PC and VF, and what it does not read. First the next state of each instruction that has no equation yet; every statement about
all instructions is then one case split, grouped by the shape of the next state.
-/

namespace Sys2Proof.Machine

/-! ### The instructions that can stop, and FX0A -/

section
variable {x y : Reg} {n : Nib} {nnn : Addr12} {s t : State}

theorem exec_ret_next : exec .ret s = .next t ↔ s.sp.val ≠ 0 ∧ t = s.pop.setPc (s.top + 2) := execRet_next

theorem exec_callNnn_next :
    exec (.callNnn nnn) s = .next t ↔ ∃ h : s.sp.val < 16, t = (s.push s.pc h).setPc (targetNnn nnn) := execCallNnn_next

theorem exec_skpVx_next : exec (.skpVx x) s = .next t ↔ (s.getV x).toNat < 16 ∧ t = s.skipIf (keyAt x s) := execSkpVx_next

theorem exec_sknpVx_next : exec (.sknpVx x) s = .next t ↔ (s.getV x).toNat < 16 ∧ t = s.skipIf (!keyAt x s) :=
  execSknpVx_next

theorem exec_ldBVx_next :
    exec (.ldBVx x) s = .next t ↔ s.i.toNat + 3 ≤ 4096 ∧
      t = (s.setMem (Memory.writeBlock s.mem (baseAddr s) (bcdDigits (s.getV x)))).advance := execLdBVx_next

theorem exec_ldMiVx_next :
    exec (.ldMiVx x) s = .next t ↔ s.i.toNat + (x.val + 1) ≤ 4096 ∧
      t = (s.setMem (Memory.writeBlock s.mem (baseAddr s) (s.blockV x))).advance := execLdMiVx_next

theorem exec_ldVxMi_next :
    exec (.ldVxMi x) s = .next t ↔ s.i.toNat + (x.val + 1) ≤ 4096 ∧
      t = (s.loadV 0 (Memory.readBlock s.mem (baseAddr s) (x.val + 1))).advance := execLdVxMi_next

theorem exec_drwVxVyN_next :
    exec (.drwVxVyN x y n) s = .next t ↔ s.i.toNat + (n.val + 1) ≤ 4096 ∧
      (∀ c ∈ drawTargets x y n s, c.1 < 64 ∧ c.2 < 32) ∧ t = drawn x y n s := execDrwVxVyN_next

/-- FX0A waits with no key down and otherwise puts the number of a pressed key in VX. -/
theorem exec_ldVxK_next (h : exec (.ldVxK x) s = .next t) :
    ((∀ k : Key, s.key[k] = false) ∧ t = s) ∨
    (∃ k : Key, s.key[k] = true ∧ ∃ d, t = ({ s.setV x (BitVec.ofNat 8 k.val) with draws := d } : State).advance) := by
  replace h : execLdVxK x s = .next t := h
  rcases execLdVxK_cases x s with ⟨hk, he⟩ | ⟨k, hk, d, he⟩
  · rw [he] at h; cases h; exact .inl ⟨hk, rfl⟩
  · rw [he] at h; cases h; exact .inr ⟨k, hk, d, rfl⟩

end

/-! ### The flag writers (R110): VF and VX are written, PC advances -/

section
variable (x : Reg) (flag : Bool) (result : State → Byte) (s : State)

@[simp] theorem flagThenResult_i : (flagThenResult x flag result s).i = s.i := rfl
@[simp] theorem flagThenResult_stack : (flagThenResult x flag result s).stack = s.stack := rfl
@[simp] theorem flagThenResult_sp : (flagThenResult x flag result s).sp = s.sp := rfl
@[simp] theorem flagThenResult_dt : (flagThenResult x flag result s).dt = s.dt := rfl
@[simp] theorem flagThenResult_st : (flagThenResult x flag result s).st = s.st := rfl
@[simp] theorem flagThenResult_fb : (flagThenResult x flag result s).fb = s.fb := rfl
@[simp] theorem flagThenResult_draw : (flagThenResult x flag result s).draw = s.draw := rfl
@[simp] theorem flagThenResult_key : (flagThenResult x flag result s).key = s.key := rfl
@[simp] theorem flagThenResult_mem : (flagThenResult x flag result s).mem = s.mem := rfl
@[simp] theorem flagThenResult_opcode : (flagThenResult x flag result s).opcode = s.opcode := rfl

end

/-! ### Block loads and DXYN, element by element -/

section
variable (s : State) (first : Nat) (bs : List Byte)

@[simp] theorem State.loadV_i : (s.loadV first bs).i = s.i := by rw [State.loadV_eq]
@[simp] theorem State.loadV_pc : (s.loadV first bs).pc = s.pc := by rw [State.loadV_eq]
@[simp] theorem State.loadV_stack : (s.loadV first bs).stack = s.stack := by rw [State.loadV_eq]
@[simp] theorem State.loadV_sp : (s.loadV first bs).sp = s.sp := by rw [State.loadV_eq]
@[simp] theorem State.loadV_dt : (s.loadV first bs).dt = s.dt := by rw [State.loadV_eq]
@[simp] theorem State.loadV_st : (s.loadV first bs).st = s.st := by rw [State.loadV_eq]
@[simp] theorem State.loadV_fb : (s.loadV first bs).fb = s.fb := by rw [State.loadV_eq]
@[simp] theorem State.loadV_draw : (s.loadV first bs).draw = s.draw := by rw [State.loadV_eq]
@[simp] theorem State.loadV_key : (s.loadV first bs).key = s.key := by rw [State.loadV_eq]
@[simp] theorem State.loadV_mem : (s.loadV first bs).mem = s.mem := by rw [State.loadV_eq]
@[simp] theorem State.loadV_opcode : (s.loadV first bs).opcode = s.opcode := by rw [State.loadV_eq]

end

/-- A block load of V0 to VX, register by register (R187). -/
theorem State.getV_loadBlock (s : State) (m : Memory) (base : Nat) (x r : Reg) :
    (s.loadV 0 (Memory.readBlock m base (x.val + 1))).getV r = if r ≤ x then Memory.read m (base + r.val) else s.getV r := by
  rw [State.getV_loadV _ _ _ (by rw [Memory.readBlock_length]; omega)]
  by_cases hr : r ≤ x
  · have hv : r.val ≤ x.val := hr
    rw [if_pos hr, dif_pos (by rw [Memory.readBlock_length]; omega), Memory.readBlock_getElem, Nat.sub_zero]
  · have hv : ¬ r.val ≤ x.val := hr
    rw [if_neg hr, dif_neg (by rw [Memory.readBlock_length]; omega)]

/-- A cell is a target of DXYN exactly when a set sprite bit falls on it (R121, R122). -/
theorem mem_drawTargets {x y : Reg} {n : Nib} {s : State} {c : Nat × Nat} :
    c ∈ drawTargets x y n s ↔ SpriteBitAt x y n s c.1 c.2 := by
  rw [drawTargets, mem_spriteCells]
  constructor
  · rintro ⟨k, j, hk, hj, hbit, rfl⟩
    rw [Memory.readBlock_length, spriteRows, spriteRowBias] at hk
    rw [Memory.readBlock_getElem] at hbit
    exact ⟨k, j, by omega, hj, rfl, rfl, hbit⟩
  · rintro ⟨k, j, hk, hj, hcol, hrow, hbit⟩
    refine ⟨k, j, ?_, hj, ?_, Prod.ext hcol hrow⟩
    · rw [Memory.readBlock_length, spriteRows, spriteRowBias]; omega
    · rw [Memory.readBlock_getElem]; exact hbit

/-! ### Faults (R108; decisions D2 to D6, D29) -/

section
variable {x y : Reg} {n : Nib} {nnn : Addr12} {s : State} {r : Fault}

theorem exec_ret_fault : exec .ret s = .fault r ↔ s.sp.val = 0 ∧ r = .stackUnderflow := execRet_fault

theorem exec_callNnn_fault : exec (.callNnn nnn) s = .fault r ↔ s.sp.val = 16 ∧ r = .stackOverflow := execCallNnn_fault

theorem exec_skpVx_fault : exec (.skpVx x) s = .fault r ↔ 15 < (s.getV x).toNat ∧ r = .keyIndexOutOfRange :=
  execSkpVx_fault

theorem exec_sknpVx_fault : exec (.sknpVx x) s = .fault r ↔ 15 < (s.getV x).toNat ∧ r = .keyIndexOutOfRange :=
  execSknpVx_fault

theorem exec_ldBVx_fault : exec (.ldBVx x) s = .fault r ↔ 4095 < s.i.toNat + 2 ∧ r = .memoryOutOfRange :=
  execLdBVx_fault.trans (and_congr_left' Nat.succ_lt_succ_iff)

theorem exec_ldMiVx_fault : exec (.ldMiVx x) s = .fault r ↔ 4095 < s.i.toNat + x.val ∧ r = .memoryOutOfRange :=
  execLdMiVx_fault.trans (and_congr_left' Nat.succ_lt_succ_iff)

theorem exec_ldVxMi_fault : exec (.ldVxMi x) s = .fault r ↔ 4095 < s.i.toNat + x.val ∧ r = .memoryOutOfRange :=
  execLdVxMi_fault.trans (and_congr_left' Nat.succ_lt_succ_iff)

theorem exec_drwVxVyN_fault :
    exec (.drwVxVyN x y n) s = .fault r ↔
      (4095 < s.i.toNat + n.val ∧ r = .memoryOutOfRange) ∨
      (s.i.toNat + n.val ≤ 4095 ∧ (∃ col row, SpriteBitAt x y n s col row ∧ (63 < col ∨ 31 < row)) ∧
        r = .framebufferOutOfRange) := by
  have hoff : (∃ c ∈ drawTargets x y n s, ¬ (c.1 < 64 ∧ c.2 < 32)) ↔
      ∃ col row, SpriteBitAt x y n s col row ∧ (63 < col ∨ 31 < row) := by
    simp only [Prod.exists, mem_drawTargets]
    exact exists₂_congr fun col row => and_congr_right fun _ => by omega
  refine execDrwVxVyN_fault.trans (or_congr (and_congr_left' ?_) (and_congr ?_ (and_congr_left' hoff)))
  · exact Nat.succ_lt_succ_iff
  · exact Nat.succ_le_succ_iff

end

theorem exec_ldVxK_ne_fault (x : Reg) (s : State) (r : Fault) : exec (.ldVxK x) s ≠ .fault r := by
  change execLdVxK x s ≠ .fault r
  rcases execLdVxK_cases x s with ⟨-, he⟩ | ⟨k, -, d, he⟩ <;> rw [he] <;> nofun

theorem guarded_ne_refused {b : Bool} {a : State} {f : Fault} {r : Refusal} :
    (if b = true then Host.Outcome.next a else raise f) ≠ .refused r := by
  cases b <;> nofun

/-- Every instruction has its meaning: none is refused. -/
theorem exec_ne_refused (i : Instr) (s : State) (r : Refusal) : exec i s ≠ .refused r := by
  cases i
  case skpVx | sknpVx | ldBVx | ldMiVx | ldVxMi => exact guarded_ne_refused
  case ret =>
    change execRet s ≠ _
    unfold execRet raise
    split <;> nofun
  case callNnn nnn =>
    change execCallNnn nnn s ≠ _
    unfold execCallNnn raise
    split <;> nofun
  case drwVxVyN x y n =>
    change execDrwVxVyN x y n s ≠ _
    unfold execDrwVxVyN
    split
    · exact guarded_ne_refused
    · nofun
  case ldVxK x =>
    change execLdVxK x s ≠ _
    rcases execLdVxK_cases x s with ⟨-, he⟩ | ⟨k, -, d, he⟩ <;> rw [he] <;> nofun
  all_goals nofun

/-- Settles O13: the instructions that can stop are inverted one by one; every other answers a next state by definition, and no clause
names it. -/
theorem instructionsFaultExactlyAsListed : Obligations.InstructionsFaultExactlyAsListed := by
  intro i s
  refine ⟨exec_ne_refused i s, fun r => ?_⟩
  cases i
  case ret => simp [exec_ret_fault]
  case callNnn => simp [exec_callNnn_fault]
  case skpVx => simp [exec_skpVx_fault]
  case sknpVx => simp [exec_sknpVx_fault]
  case ldBVx => simp [exec_ldBVx_fault]
  case ldMiVx => simp [exec_ldMiVx_fault]
  case ldVxMi => simp [exec_ldVxMi_fault]
  case drwVxVyN x y n => simp [exec_drwVxVyN_fault]
  case ldVxK x => exact ⟨fun h => absurd h (exec_ldVxK_ne_fault x s r), by simp⟩
  all_goals exact ⟨nofun, by simp⟩

/-! ### The "written by" columns (R20) -/

/-- Settles O23: one case split; in each group the next state is a few named updates, whose field laws show what they spare. -/
theorem onlyTheListedInstructionsWrite : Obligations.OnlyTheListedInstructionsWrite := by
  intro i s t h
  cases i
  case cls => cases h; simp
  case ret => obtain ⟨-, rfl⟩ := exec_ret_next.mp h; simp
  case callNnn => obtain ⟨hsp, rfl⟩ := exec_callNnn_next.mp h; simp
  case jpNnn | jpV0Nnn | seVxNn | sneVxNn | seVxVy | sneVxVy => cases h; simp
  case skpVx => obtain ⟨-, rfl⟩ := exec_skpVx_next.mp h; simp
  case sknpVx => obtain ⟨-, rfl⟩ := exec_sknpVx_next.mp h; simp
  case ldVxNn | addVxNn | ldVxVy | orVxVy | andVxVy | xorVxVy | ldVxDt | rndVxNn => cases h; simp
  case addVxVy | subVxVy | shrVx | subnVxVy | shlVx => cases h; simp
  case ldINnn | addIVx | ldFVx => cases h; simp
  case ldDtVx | ldStVx => cases h; simp
  case ldBVx => obtain ⟨-, rfl⟩ := exec_ldBVx_next.mp h; simp
  case ldMiVx => obtain ⟨-, rfl⟩ := exec_ldMiVx_next.mp h; simp
  case ldVxMi => obtain ⟨-, rfl⟩ := exec_ldVxMi_next.mp h; simp
  case ldVxK =>
    rcases exec_ldVxK_next h with ⟨-, rfl⟩ | ⟨k, -, d, rfl⟩
    · simp
    · simp
  case drwVxVyN => obtain ⟨-, -, rfl⟩ := exec_drwVxVyN_next.mp h; simp [drawn]

/-! ### VF (R22) -/

/-- A write of one register that changes register `q` is a write of `q`. -/
theorem State.eq_of_getV_setV_ne {s : State} {x q : Reg} {b : Byte} (h : (s.setV x b).getV q ≠ s.getV q) : x = q := by
  by_contra hx
  exact h (s.getV_setV_other (Ne.symm hx) b)

/-- Settles O24: an instruction that is no flag writer writes no register, or VX alone, or V0 to VX. -/
theorem onlyFlagWritersTouchVF : Obligations.OnlyFlagWritersTouchVF := by
  intro i s t h hvf
  cases i
  case addVxVy | subVxVy | shrVx | subnVxVy | shlVx => simp
  case drwVxVyN => simp
  case ldVxNn | addVxNn | rndVxNn | ldVxVy | orVxVy | andVxVy | xorVxVy | ldVxDt =>
    cases h
    obtain rfl := State.eq_of_getV_setV_ne hvf
    simp
  case ldVxK =>
    rcases exec_ldVxK_next h with ⟨-, rfl⟩ | ⟨k, -, d, rfl⟩
    · exact absurd rfl hvf
    · obtain rfl := State.eq_of_getV_setV_ne hvf
      simp
  case ldVxMi x =>
    obtain ⟨-, rfl⟩ := exec_ldVxMi_next.mp h
    have hx : (15 : Reg) ≤ x := by
      by_contra hx
      exact hvf ((s.getV_loadBlock _ _ x 15).trans (if_neg hx))
    obtain rfl : 15 = x := Fin.le_antisymm hx (Fin.le_last x)
    simp
  case cls | jpNnn | jpV0Nnn | seVxNn | sneVxNn | seVxVy | sneVxVy | ldINnn | addIVx | ldFVx | ldDtVx | ldStVx =>
    cases h
    exact absurd rfl hvf
  case ret => obtain ⟨-, rfl⟩ := exec_ret_next.mp h; exact absurd rfl hvf
  case callNnn => obtain ⟨_, rfl⟩ := exec_callNnn_next.mp h; exact absurd rfl hvf
  case skpVx => obtain ⟨-, rfl⟩ := exec_skpVx_next.mp h; exact absurd rfl hvf
  case sknpVx => obtain ⟨-, rfl⟩ := exec_sknpVx_next.mp h; exact absurd rfl hvf
  case ldBVx => obtain ⟨-, rfl⟩ := exec_ldBVx_next.mp h; exact absurd rfl hvf
  case ldMiVx => obtain ⟨-, rfl⟩ := exec_ldMiVx_next.mp h; exact absurd rfl hvf

/-! ### What is not read (R20, R31, R34) -/

/-- The outcomes of two states that differ in OPCODE, DRAW and ST only: the same fault, or next states that differ in these only. -/
def UnreadAgree : Host.Outcome State Fault Refusal → Host.Outcome State Fault Refusal → Prop
  | .next t, .next t' => { t' with opcode := t.opcode, draw := t.draw, st := t.st } = t
  | .fault r, .fault r' => r = r'
  | _, _ => False

theorem UnreadAgree.ite (b : Bool) {o₁ o₁' o₂ o₂' : Host.Outcome State Fault Refusal} (h₁ : UnreadAgree o₁ o₁')
    (h₂ : UnreadAgree o₂ o₂') : UnreadAgree (if b = true then o₁ else o₂) (if b = true then o₁' else o₂') := by
  cases b
  · exact h₂
  · exact h₁

theorem UnreadAgree.raise (r : Fault) : UnreadAgree (raise r) (raise r) := rfl

/-- `s` with other values in the three elements that no instruction reads. -/
def State.withUnread (s : State) (w : Word) (b : Bool) (c : Byte) : State := { s with opcode := w, draw := b, st := c }

theorem State.loadV_withUnread (s : State) (w : Word) (b : Bool) (c : Byte) (first : Nat) (bs : List Byte) :
    (s.withUnread w b c).loadV first bs = (s.loadV first bs).withUnread w b c := by
  induction bs generalizing s first with
  | nil => rfl
  | cons d bs ih => exact ih (s.setV (Fin.ofNat 16 first) d) (first + 1)

theorem exec_unreadAgree (i : Instr) (s : State) (w : Word) (b : Bool) (c : Byte) :
    UnreadAgree (exec i s) (exec i (s.withUnread w b c)) := by
  cases i
  case skpVx | sknpVx | ldBVx | ldMiVx => exact .ite _ rfl (.raise _)
  case ldVxMi x =>
    refine .ite _ ?_ (.raise _)
    rw [State.loadV_withUnread]
    rfl
  case drwVxVyN => exact .ite _ (.ite _ rfl (.raise _)) (.raise _)
  case ret =>
    have hsp : (s.withUnread w b c).sp = s.sp := rfl
    simp only [exec, execRet, hsp]
    split
    · exact .raise _
    · rfl
  case callNnn nnn =>
    have hsp : (s.withUnread w b c).sp = s.sp := rfl
    by_cases h : s.sp.val < 16
    · simp only [exec, execCallNnn, hsp, h, dite_true]; rfl
    · simp only [exec, execCallNnn, hsp, h, dite_false]; exact .raise _
  case ldVxK x =>
    have hchoose : chooseKey (Config.keyPick (s.withUnread w b c).draws) (s.withUnread w b c).pressedKeys =
        chooseKey (Config.keyPick s.draws) s.pressedKeys := rfl
    simp only [exec, execLdVxK, hchoose]
    split <;> rfl
  all_goals rfl

/-- Settles O25: every meaning is built from updates and tests that do not mention OPCODE, DRAW or ST but to write them, so both runs
take the same branch. -/
theorem latchRedrawFlagAndSoundTimerAreNeverRead : Obligations.LatchRedrawFlagAndSoundTimerAreNeverRead :=
  exec_unreadAgree

end Sys2Proof.Machine
end

section
/-!
PROOFS. The step (`40_step_cycle.md`, `60_exceptions.md`): fetch, decode, execute and tick put together, from the three ways a cycle can
go and from what an instruction can do.
-/

namespace Sys2Proof.Machine

/-! ### The three ways a cycle can go (R101) -/

section
variable {s : State} {i : Instr}

theorem cycle_of_outOfRange (hpc : 4094 < s.pc.toNat) : cycle s = stepFailed .memoryOutOfRange s := by
  have hr : fetchInRange s = false := by rw [← Bool.not_eq_true, fetchInRange_iff]; omega
  simp [cycle, hr]

theorem cycle_of_unrecognized (hpc : s.pc.toNat ≤ 4094) (hd : decodeWord (fetchWord s) = none) :
    cycle s = stepFailed (.unknownOpcode (fetchWord s) s.pc) (s.setOpcode (fetchWord s)) := by
  simp [cycle, (fetchInRange_iff s).mpr hpc, decode_fetchBytes_error.mpr ⟨hd, rfl⟩]

theorem cycle_of_decodes (hpc : s.pc.toNat ≤ 4094) (hd : decode (fetchBytes s) = .ok i) :
    cycle s = finishStep (s.setOpcode (fetchWord s)) (exec i (s.setOpcode (fetchWord s))) := by
  simp [cycle, (fetchInRange_iff s).mpr hpc, hd]

theorem step_of_exec_next {u : State} (hpc : s.pc.toNat ≤ 4094) (hd : decode (fetchBytes s) = .ok i)
    (he : exec i (s.setOpcode (fetchWord s)) = .next u) : step s = .next (tick u) := by
  rw [step, cycle_of_decodes hpc hd, he]; rfl

theorem step_of_exec_fault {r : Fault} (hpc : s.pc.toNat ≤ 4094) (hd : decode (fetchBytes s) = .ok i)
    (he : exec i (s.setOpcode (fetchWord s)) = .fault r) : step s = .fault r := by
  rw [step, cycle_of_decodes hpc hd, he]; rfl

/-- The instruction a successful step executed is the one the fetched bytes decode to. -/
theorem step_next_of_decodes {t : State} (h : step s = .next t) (hd : decode (fetchBytes s) = .ok i) :
    ∃ u, exec i (s.setOpcode (fetchWord s)) = .next u ∧ t = tick u ∧ stepBeeps s = tickBeeps u := by
  obtain ⟨-, j, u, hj, he, ht, -, hb⟩ := step_next_inv h
  rw [hd] at hj
  cases hj
  exact ⟨u, he, ht, hb⟩

theorem step_ne_refused (s : State) (r : Refusal) : step s ≠ .refused r := by
  unfold step cycle
  split
  · split
    · rename_i i _
      cases he : exec i (s.setOpcode (fetchWord s)) with
      | next u => nofun
      | fault r' => nofun
      | refused r' => exact absurd he (exec_ne_refused i _ r')
    · nofun
  · nofun

/-- A step that does not succeed ends with a fault. -/
theorem step_fault_of_stops (h : ∀ t, step s ≠ .next t) : ∃ r, step s = .fault r := by
  cases hs : step s with
  | next t => exact absurd hs (h t)
  | fault r => exact ⟨r, rfl⟩
  | refused r => exact absurd hs (step_ne_refused s r)

end

/-- Settles O6: the cycle of a decoded word is `exec` followed by the end of the step (R104 to R107). -/
theorem stepRunsTheDecodedInstruction : Obligations.StepRunsTheDecodedInstruction := by
  intro s i hpc hd
  rw [step, cycle_of_decodes hpc hd]
  change (finishStep _ (exec i (s.setOpcode (fetchWord s)))).outcome = match exec i (s.setOpcode (fetchWord s)) with
    | .next t => .next (tick t)
    | .fault r => .fault r
    | .refused r => .refused r
  cases exec i (s.setOpcode (fetchWord s)) <;> rfl

/-- Settles O10: the range test precedes the fetch (R102). -/
theorem fetchBeyondMemoryStops : Obligations.FetchBeyondMemoryStops := by
  intro s hpc
  have hc := cycle_of_outOfRange hpc
  refine ⟨?_, ?_, ?_⟩
  · rw [step, hc]; rfl
  · rw [afterStep, hc]; rfl
  · rw [stepBeeps, hc]; rfl

/-! ### The latch (R34, R103) -/

theorem fetchWord_toNat (s : State) :
    (fetchWord s).toNat = (Memory.read s.mem s.pc.toNat).toNat * 256 + (Memory.read s.mem (s.pc.toNat + 1)).toNat := by
  rw [fetchWord, BitVec.toNat_append, ← Nat.shiftLeft_add_eq_or_of_lt (BitVec.isLt _), Nat.shiftLeft_eq]

theorem exec_keeps_opcode {i : Instr} {s t : State} (h : exec i s = .next t) : t.opcode = s.opcode := by
  obtain ⟨-, -, -, -, -, -, -, hop⟩ := onlyTheListedInstructionsWrite i s t h
  exact hop

theorem afterStep_opcode {s : State} (hpc : s.pc.toNat ≤ 4094) : (afterStep s).opcode = fetchWord s := by
  cases hs : step s with
  | next t =>
    obtain ⟨-, i, u, -, he, rfl, ha, -⟩ := step_next_inv hs
    rw [ha]
    exact exec_keeps_opcode he
  | fault r =>
    rcases step_fault_inv hs with ⟨hr, -⟩ | ⟨-, ha, -⟩
    · rw [← Bool.not_eq_true, fetchInRange_iff] at hr
      exact absurd hpc hr
    · rw [ha, State.setOpcode_opcode]
  | refused r => exact absurd hs (step_ne_refused s r)

/-- Settles O8: the latch is written at the fetch, and no instruction writes it again. -/
theorem latchHoldsTheFetchedWord : Obligations.LatchHoldsTheFetchedWord := by
  intro s hpc
  rw [afterStep_opcode hpc, fetchWord_toNat]

/-! ### Failing steps (R107, R109, R221, R226) -/

theorem exec_ne_unknownOpcode (i : Instr) (s : State) (op pc : Word) : exec i s ≠ .fault (.unknownOpcode op pc) := by
  intro h
  have hlisted := ((instructionsFaultExactlyAsListed i s).2 _).mp h
  simp at hlisted

/-- Settles O9: no instruction raises `UnknownOpcode`, so it comes from the decode phase, which names the fetched word and PC. -/
theorem unknownOpcodeExactlyWhenUnrecognized : Obligations.UnknownOpcodeExactlyWhenUnrecognized := by
  intro s op pc hpc
  constructor
  · intro h
    rcases step_fault_inv h with ⟨-, hr, -⟩ | ⟨-, -, -, ⟨e, hd, hr⟩ | ⟨i, -, he⟩⟩
    · cases hr
    · cases hr
      exact ⟨(decode_fetchBytes_error.mp hd).1, rfl, rfl⟩
    · exact absurd he (exec_ne_unknownOpcode i _ op pc)
  · rintro ⟨hd, rfl, rfl⟩
    rw [step, cycle_of_unrecognized hpc hd]; rfl

theorem ChangesOnly.setOpcode {p : Elem → Prop} {s t : State} (h : ChangesOnly p s t) (hp : p .opcode) (w : Word) :
    ChangesOnly p s (t.setOpcode w) := by
  intro e he
  have hs := h e he
  cases e
  case opcode => exact absurd hp he
  all_goals exact hs

theorem changesOnly_setOpcode (s : State) (w : Word) : ChangesOnly (· = .opcode) s (s.setOpcode w) :=
  (ChangesOnly.refl (· = .opcode) s).setOpcode rfl w

/-- Settles O11: a failing step leaves its own state, or that state with the latch written. -/
theorem failedStepChangesOnlyTheLatch : Obligations.FailedStepChangesOnlyTheLatch := by
  intro s r h
  rcases step_fault_inv h with ⟨-, -, ha, hb⟩ | ⟨-, ha, hb, -⟩
  · rw [ha]
    exact ⟨ChangesOnly.refl _ s, rfl, hb⟩
  · rw [ha]
    exact ⟨changesOnly_setOpcode s _, rfl, hb⟩

/-- Whether an instruction faults, and why, depends on the registers, I, SP and memory alone. -/
theorem exec_fault_congr {i : Instr} {s t : State} {r : Fault} (hv : t.v = s.v) (hi : t.i = s.i) (hsp : t.sp = s.sp)
    (hmem : t.mem = s.mem) : exec i t = .fault r ↔ exec i s = .fault r := by
  rw [(instructionsFaultExactlyAsListed i t).2, (instructionsFaultExactlyAsListed i s).2]
  simp only [SpriteBitAt, baseAddr, State.getV, hv, hi, hsp, hmem]

/-- The fetch reads PC and memory alone. -/
theorem fetchWord_congr {s t : State} (hpc : t.pc = s.pc) (hmem : t.mem = s.mem) : fetchWord t = fetchWord s := by
  simp only [fetchWord, hpc, hmem]

theorem fetchBytes_congr {s t : State} (hpc : t.pc = s.pc) (hmem : t.mem = s.mem) : fetchBytes t = fetchBytes s := by
  simp only [fetchBytes, hpc, hmem]

/-- A fault depends on PC, the registers, I, SP and memory alone. -/
theorem step_fault_congr {s t : State} {r : Fault} (h : step s = .fault r) (hpc : t.pc = s.pc) (hv : t.v = s.v)
    (hi : t.i = s.i) (hsp : t.sp = s.sp) (hmem : t.mem = s.mem) : step t = .fault r := by
  have hbytes := fetchBytes_congr hpc hmem
  have hword := fetchWord_congr hpc hmem
  rcases step_fault_inv h with ⟨hr, rfl, -⟩ | ⟨hr, -, -, ⟨e, hd, rfl⟩ | ⟨i, hd, he⟩⟩
  · rw [← Bool.not_eq_true, fetchInRange_iff, ← hpc] at hr
    rw [step, cycle_of_outOfRange (by omega)]; rfl
  · rw [fetchInRange_iff, ← hpc] at hr
    rw [decode_fetchBytes_error, ← hword] at hd
    rw [step, cycle_of_unrecognized hr hd.1, hword, hpc]; rfl
  · rw [fetchInRange_iff, ← hpc] at hr
    rw [← hbytes] at hd
    have hcongr := exec_fault_congr (s := s.setOpcode (fetchWord s)) (t := t.setOpcode (fetchWord t)) (i := i) (r := r)
      hv hi hsp hmem
    exact step_of_exec_fault hr hd (hcongr.mpr he)

/-- Settles O12: what a failing step, the keys and the draws change is nothing a fault depends on. -/
theorem steppingAgainFailsTheSameWay : Obligations.SteppingAgainFailsTheSameWay := by
  intro s r keys d h
  rcases step_fault_inv h with ⟨-, -, ha, -⟩ | ⟨-, ha, -⟩
  all_goals
    rw [ha]
    exact step_fault_congr h rfl rfl rfl rfl rfl

/-! ### PC (R25) -/

/-- `KEY[VX]` is the key VX names. -/
theorem keyAt_eq {x : Reg} {s : State} {k : Key} (hk : k.val = (s.getV x).toNat) : keyAt x s = s.key[k] := by
  simp only [keyAt, ← hk, Nat.mod_eq_of_lt k.isLt, Fin.getElem_fin]

/-- The slot a return pops is the last one in use. -/
theorem State.top_eq {s : State} {k : Fin 16} (hk : k.val + 1 = s.sp.val) : s.top = s.stack[k] := by
  simp only [State.top, ← hk, Nat.add_sub_cancel, Fin.getElem_fin]

theorem State.skipIf_pc_eq (s : State) (c : Bool) : (s.skipIf c).pc = if c then s.pc + 4 else s.pc + 2 := by
  cases c <;> rfl

theorem State.skipIf_not_pc_eq (s : State) (c : Bool) : (s.skipIf (!c)).pc = if c then s.pc + 2 else s.pc + 4 := by
  cases c <;> rfl

/-- Settles O14: one case split for the instructions that succeed; a step that does not succeed changes the latch at most. -/
theorem pcAfterEveryInstruction : Obligations.PcAfterEveryInstruction := by
  constructor
  case left =>
    intro i s t h
    cases i
    case jpNnn nnn => cases h; exact targetNnn_toNat nnn
    case callNnn nnn => obtain ⟨_, rfl⟩ := exec_callNnn_next.mp h; exact targetNnn_toNat nnn
    case jpV0Nnn nnn => cases h; exact ⟨targetV0_toNat nnn s, targetV0_le nnn s⟩
    case ret =>
      obtain ⟨hsp, rfl⟩ := exec_ret_next.mp h
      have hlt := s.sp.isLt
      have hk : s.sp.val - 1 + 1 = s.sp.val := by omega
      exact ⟨⟨s.sp.val - 1, by omega⟩, hk, congrArg (· + 2) (State.top_eq hk)⟩
    case seVxNn | seVxVy => cases h; exact (s.skipIf_pc_eq _).trans (by simp only [beq_iff_eq])
    case sneVxNn | sneVxVy => cases h; exact (s.skipIf_pc_eq _).trans (by simp only [bne_iff_ne])
    case skpVx x =>
      obtain ⟨hv, rfl⟩ := exec_skpVx_next.mp h
      exact ⟨⟨_, hv⟩, rfl, by rw [State.skipIf_pc_eq, keyAt_eq (k := ⟨_, hv⟩) rfl]⟩
    case sknpVx x =>
      obtain ⟨hv, rfl⟩ := exec_sknpVx_next.mp h
      exact ⟨⟨_, hv⟩, rfl, by rw [State.skipIf_not_pc_eq, keyAt_eq (k := ⟨_, hv⟩) rfl]⟩
    case ldVxK =>
      rcases exec_ldVxK_next h with ⟨hk, rfl⟩ | ⟨k, hk, d, rfl⟩
      · exact (if_neg (by simpa using hk)).mpr rfl
      · exact (if_pos ⟨k, hk⟩).mpr rfl
    case ldBVx => obtain ⟨-, rfl⟩ := exec_ldBVx_next.mp h; rfl
    case ldMiVx => obtain ⟨-, rfl⟩ := exec_ldMiVx_next.mp h; rfl
    case ldVxMi =>
      obtain ⟨-, rfl⟩ := exec_ldVxMi_next.mp h
      exact congrArg (· + 2) (State.loadV_pc s 0 _)
    case drwVxVyN => obtain ⟨-, -, rfl⟩ := exec_drwVxVyN_next.mp h; rfl
    all_goals cases h; rfl
  case right =>
    intro s h
    obtain ⟨r, hr⟩ := step_fault_of_stops h
    exact (failedStepChangesOnlyTheLatch s r hr).1 .pc nofun

/-! ### The tick (R106, R236, R237) -/

theorem countDown_toNat (b : Byte) : (countDown b).toNat = b.toNat - 1 := by
  unfold countDown
  split
  case isTrue h => rw [h]; rfl
  case isFalse h =>
    have hpos : b.toNat ≠ 0 := fun h0 => h (BitVec.eq_of_toNat_eq h0)
    have hlt := b.isLt
    rw [BitVec.toNat_sub]
    change (256 - 1 + b.toNat) % 256 = b.toNat - 1
    omega

@[simp] theorem tick_dt (s : State) : (tick s).dt = countDown s.dt := rfl
@[simp] theorem tick_st (s : State) : (tick s).st = countDown s.st := rfl

theorem ChangesOnly.tick {p : Elem → Prop} {s t : State} (h : ChangesOnly p s t) (hdt : p .dt) (hst : p .st) :
    ChangesOnly p s (tick t) :=
  (h.setDt hdt _).setSt hst _

theorem tickBeeps_iff (s : State) : tickBeeps s = true ↔ s.st.toNat = 1 := by
  rw [tickBeeps, beq_iff_eq, ← BitVec.toNat_inj]; rfl

/-- Settles O15: a successful step is `exec` and then the tick; a failing one is stopped before it. -/
theorem tickFollowsEverySuccess : Obligations.TickFollowsEverySuccess := by
  intro s
  constructor
  case left =>
    intro t h
    obtain ⟨-, i, u, hd, he, rfl, -, hb⟩ := step_next_inv h
    refine ⟨i, u, hd, he, ?_, ?_, ?_, ?_⟩
    · rw [tick_dt, countDown_toNat]
    · rw [tick_st, countDown_toNat]
    · exact (ChangesOnly.refl _ u).tick (by simp) (by simp)
    · rw [hb, tickBeeps_iff]
  case right =>
    intro h
    obtain ⟨r, hr⟩ := step_fault_of_stops h
    obtain ⟨hframe, -, hb⟩ := failedStepChangesOnlyTheLatch s r hr
    exact ⟨hb, hframe .dt nofun, hframe .st nofun⟩

/-! ### Timers over a run (R208) -/

section
variable {s t : State} {i : Instr}

/-- A successful step of an instruction other than FX15 takes 1 from DT. -/
theorem dt_of_step (h : step s = .next t) (hd : decode (fetchBytes s) = .ok i) (hi : ∀ x, i ≠ .ldDtVx x) :
    t.dt.toNat = s.dt.toNat - 1 := by
  obtain ⟨u, he, rfl, -⟩ := step_next_of_decodes h hd
  obtain ⟨-, -, -, -, hdt | ⟨x, hx⟩, -⟩ := onlyTheListedInstructionsWrite i _ u he
  · rw [tick_dt, countDown_toNat, hdt, State.setOpcode_dt]
  · exact absurd hx (hi x)

/-- A successful step of an instruction other than FX18 takes 1 from ST, and beeps when it finds ST = 1. -/
theorem st_of_step (h : step s = .next t) (hd : decode (fetchBytes s) = .ok i) (hi : ∀ x, i ≠ .ldStVx x) :
    t.st.toNat = s.st.toNat - 1 ∧ (stepBeeps s = true ↔ s.st.toNat = 1) := by
  obtain ⟨u, he, rfl, hb⟩ := step_next_of_decodes h hd
  obtain ⟨-, -, -, -, -, hst | ⟨x, hx⟩, -⟩ := onlyTheListedInstructionsWrite i _ u he
  · rw [tick_st, countDown_toNat, hb, tickBeeps_iff, hst, State.setOpcode_st]
    exact ⟨rfl, Iff.rfl⟩
  · exact absurd hx (hi x)

end

theorem dt_of_run {n : Nat} {s t : State} (h : RunsTo (fun i => ∀ x, i ≠ .ldDtVx x) n s t) :
    t.dt.toNat = s.dt.toNat - n := by
  induction n generalizing s with
  | zero => rw [show t = s from h, Nat.sub_zero]
  | succ n ih =>
    obtain ⟨i, u, hd, hi, hs, hrun⟩ := h
    rw [ih hrun, dt_of_step hs hd hi, Nat.sub_sub, Nat.add_comm]

theorem st_of_run {n : Nat} {s t : State} (h : RunsTo (fun i => ∀ x, i ≠ .ldStVx x) n s t) :
    t.st.toNat = s.st.toNat - n := by
  induction n generalizing s with
  | zero => rw [show t = s from h, Nat.sub_zero]
  | succ n ih =>
    obtain ⟨i, u, hd, hi, hs, hrun⟩ := h
    rw [ih hrun, (st_of_step hs hd hi).1, Nat.sub_sub, Nat.add_comm]

/-- Settles O16: by induction on the run, one tick a step. -/
theorem timersCountSuccessfulSteps : Obligations.TimersCountSuccessfulSteps :=
  fun _ _ _ => ⟨dt_of_run, st_of_run⟩

/-- Settles O17: after n steps ST reads `M - n`, and the next step beeps exactly when that is 1. -/
theorem soundTimerBeepsOnce : Obligations.SoundTimerBeepsOnce := by
  intro n s t u hrun hlast
  obtain ⟨i, v, hd, hi, hs, -⟩ := hlast
  rw [(st_of_step hs hd hi).2, st_of_run hrun]
  omega

/-! ### Runs that only tick (R204, R208, R269) -/

/-- Settles O31: the jump puts PC where it was, so the next fetch reads the same bytes. -/
theorem endedRunOnlyTicks : Obligations.EndedRunOnlyTicks := by
  rintro s ⟨nnn, hr, hd, htarget⟩
  have hstep := step_of_exec_next ((fetchInRange_iff s).mp hr) hd (exec_jpNnn nnn _)
  rw [htarget] at hstep
  refine ⟨_, hstep, ⟨nnn, hr, hd, htarget⟩, rfl, ?_⟩
  have hlatch := (ChangesOnly.refl (· ∈ [Elem.dt, Elem.st, Elem.opcode]) s).setOpcode (by simp) (fetchWord s)
  exact ChangesOnly.tick hlatch (by simp) (by simp)

theorem exec_ldVxK_waits {x : Reg} {s : State} (hk : ∀ k : Key, s.key[k] = false) : exec (.ldVxK x) s = .next s := by
  change execLdVxK x s = _
  rcases execLdVxK_cases x s with ⟨-, he⟩ | ⟨k, hdown, -⟩
  · exact he
  · rw [hk k] at hdown
    cases hdown

theorem ChangesOnly.trans {p : Elem → Prop} {s t u : State} (h : ChangesOnly p s t) (h' : ChangesOnly p t u) :
    ChangesOnly p s u := by
  intro e he
  have hst := h e he
  have htu := h' e he
  cases e <;> exact htu.trans hst

/-- Settles O56: a waiting step changes the latch and the timers only, so the next step waits too; by induction on the number of
steps. -/
theorem keyWaitPollsWhileTimersRun : Obligations.KeyWaitPollsWhileTimersRun := by
  intro n
  induction n with
  | zero =>
    intro x s _ _ _
    exact ⟨s, rfl, rfl, rfl, rfl, ChangesOnly.refl _ s⟩
  | succ n ih =>
    intro x s hpc hd hk
    have hstep := step_of_exec_next hpc hd (exec_ldVxK_waits (s := s.setOpcode (fetchWord s)) hk)
    have hframe : ChangesOnly (· ∈ [Elem.dt, Elem.st, Elem.opcode]) s (tick (s.setOpcode (fetchWord s))) :=
      ((ChangesOnly.refl _ s).setOpcode (by simp) _).tick (by simp) (by simp)
    obtain ⟨t, hrun, htpc, hdt, hst, hrest⟩ := ih x (tick (s.setOpcode (fetchWord s))) hpc hd hk
    refine ⟨t, ⟨_, _, hd, rfl, hstep, hrun⟩, htpc, ?_, ?_, hframe.trans hrest⟩
    · rw [hdt, tick_dt, countDown_toNat, State.setOpcode_dt]; omega
    · rw [hst, tick_st, countDown_toNat, State.setOpcode_st]; omega

/-- Settles O58: the tick follows the write in the same step (R106, R206, R207). -/
theorem writtenTimerTicksInTheSameStep : Obligations.WrittenTimerTicksInTheSameStep := by
  intro x s hpc
  refine ⟨fun hd => ?dt, fun hd => ?st⟩
  case dt =>
    refine ⟨_, step_of_exec_next hpc hd (exec_ldDtVx x _), ?_⟩
    rw [tick_dt, countDown_toNat]; rfl
  case st =>
    have hstep := step_of_exec_next hpc hd (exec_ldStVx x _)
    refine ⟨_, hstep, ?_, ?_⟩
    · rw [tick_st, countDown_toNat]; rfl
    · obtain ⟨u, he, -, hb⟩ := step_next_of_decodes hstep hd
      cases he
      rw [hb, tickBeeps_iff, ← BitVec.toNat_inj]; rfl

end Sys2Proof.Machine
end

section
/-!
PROOFS. The machine as a whole (`10_state.md`, `20_memory.md`) and its caller (`70_reset_and_hazards.md`): the invariant, the font
table, the canonical form of memory, reset and load. What a step changes comes from the "written by" columns and the PC table.
-/

namespace Sys2Proof.Machine

/-! ### Frames of memory and key writes -/

section
variable {p : Elem → Prop} {s t : State}

/-- A block store changes the addresses of the block at most. -/
theorem ChangesOnly.writeBlock (h : ChangesOnly p s t) {base : Nat} {bs : List Byte}
    (hp : ∀ a, base ≤ a → a < base + bs.length → p (.mem a)) :
    ChangesOnly p s (t.setMem (Memory.writeBlock t.mem base bs)) := by
  intro e he
  have hs := h e he
  cases e
  case mem a =>
    have hout : a < base ∨ base + bs.length ≤ a := by
      by_contra hin
      exact he (hp a (by omega) (by omega))
    exact (Memory.read_writeBlock_outside hout).trans hs
  case font => exact (Memory.writeBlock_font _ _ _).trans hs
  all_goals exact hs

theorem State.key_setKey (s : State) (k j : Key) (b : Bool) : (s.setKey k b).key[j] = if j = k then b else s.key[j] := by
  simp only [State.setKey_key, Fin.getElem_fin, Vector.getElem_set, Fin.ext_iff, eq_comm]

theorem ChangesOnly.setKey {k : Key} (h : ChangesOnly p s t) (hp : p (.key k)) (b : Bool) :
    ChangesOnly p s (t.setKey k b) := by
  intro e he
  have hs := h e he
  cases e
  case key j =>
    have hj : j ≠ k := by rintro rfl; exact he hp
    exact ((t.key_setKey k j b).trans (if_neg hj)).trans hs
  all_goals exact hs

end

/-! ### The invariant -/

theorem resetWith_inv (font : FontTable) : (State.resetWith font).Inv where
  memCanonical := rfl
  usedSlots := fun k hk => absurd hk (Nat.not_lt_zero _)
  freeSlots := fun k _ => by simp [State.resetWith]
  pcBound := show (0x200 : Word).toNat ≤ 0x10FE by decide

/-- Settles O19: nothing is listed, and no slot is in use. -/
theorem resetHasTheInvariant : Obligations.ResetHasTheInvariant :=
  ⟨resetWith_inv _, resetWith_inv⟩

section
variable {s t : State} {i : Instr}

/-- The invariant looks at memory, the call stack and PC alone. -/
theorem State.Inv.congr (h : s.Inv) (hmem : t.mem = s.mem) (hstack : t.stack = s.stack) (hsp : t.sp = s.sp)
    (hpc : t.pc = s.pc) : t.Inv where
  memCanonical := by rw [hmem]; exact h.memCanonical
  usedSlots := by rw [hstack, hsp]; exact h.usedSlots
  freeSlots := by rw [hstack, hsp]; exact h.freeSlots
  pcBound := by rw [hpc]; exact h.pcBound

/-- Memory stays canonical: the two stores are inside the address space. -/
theorem exec_keeps_memCanonical (hinv : s.Inv) (h : exec i s = .next t) : Memory.wf t.mem = true := by
  obtain ⟨-, -, hmem | ⟨x, rfl | rfl⟩, -⟩ := onlyTheListedInstructionsWrite i s t h
  · rw [hmem]; exact hinv.memCanonical
  · obtain ⟨hr, rfl⟩ := exec_ldBVx_next.mp h
    exact Memory.wf_writeBlock hinv.memCanonical hr
  · obtain ⟨hr, rfl⟩ := exec_ldMiVx_next.mp h
    exact Memory.wf_writeBlock hinv.memCanonical (by rw [State.blockV_length]; exact hr)

/-- Used slots hold addresses that were fetched from: a call pushes the PC of its own fetch. -/
theorem exec_keeps_usedSlots (hinv : s.Inv) (hpc : s.pc.toNat ≤ 4094) (h : exec i s = .next t) (k : Fin 16)
    (hk : k.val < t.sp.val) : t.stack[k].toNat ≤ 4094 := by
  obtain ⟨-, ⟨hstack, hsp⟩ | rfl | ⟨nnn, rfl⟩, -⟩ := onlyTheListedInstructionsWrite i s t h
  · rw [hsp] at hk
    rw [hstack]; exact hinv.usedSlots k hk
  · obtain ⟨-, rfl⟩ := exec_ret_next.mp h
    change k.val < s.sp.val - 1 at hk
    rw [State.setPc_stack, State.stack_pop, if_neg (by omega)]
    exact hinv.usedSlots k (by omega)
  · obtain ⟨hlt, rfl⟩ := exec_callNnn_next.mp h
    change k.val < s.sp.val + 1 at hk
    rw [State.setPc_stack, State.stack_push]
    split
    · exact hpc
    · exact hinv.usedSlots k (by omega)

/-- Free slots hold 0: a return zeroes the slot it frees. -/
theorem exec_keeps_freeSlots (hinv : s.Inv) (h : exec i s = .next t) (k : Fin 16) (hk : t.sp.val ≤ k.val) :
    t.stack[k] = 0 := by
  obtain ⟨-, ⟨hstack, hsp⟩ | rfl | ⟨nnn, rfl⟩, -⟩ := onlyTheListedInstructionsWrite i s t h
  · rw [hsp] at hk
    rw [hstack]; exact hinv.freeSlots k hk
  · obtain ⟨-, rfl⟩ := exec_ret_next.mp h
    change s.sp.val - 1 ≤ k.val at hk
    rw [State.setPc_stack, State.stack_pop]
    split
    · rfl
    · exact hinv.freeSlots k (by omega)
  · obtain ⟨hlt, rfl⟩ := exec_callNnn_next.mp h
    change s.sp.val + 1 ≤ k.val at hk
    rw [State.setPc_stack, State.stack_push, if_neg (by omega)]
    exact hinv.freeSlots k (by omega)

/-- PC moves on from an address that was fetched from, or from one that was pushed, by 4 at most; or to a sum of 12 and 8 bits. -/
theorem exec_pcBound (hinv : s.Inv) (hpc : s.pc.toNat ≤ 4094) (h : exec i s = .next t) : t.pc.toNat ≤ 0x10FE := by
  have hnext : ∀ {w : Word}, w.toNat ≤ 4094 → (w + 2).toNat ≤ 0x10FE := fun hw => by
    rw [BitVec.toNat_add]; simp; omega
  have hskip : ∀ {w : Word}, w.toNat ≤ 4094 → (w + 4).toNat ≤ 0x10FE := fun hw => by
    rw [BitVec.toNat_add]; simp; omega
  have htable := pcAfterEveryInstruction.1 i s t h
  cases i
  case jpNnn nnn | callNnn nnn =>
    have hlt := nnn.isLt
    simp only at htable
    omega
  case jpV0Nnn => exact htable.2
  case ret =>
    obtain ⟨k, hk, htop⟩ := htable
    rw [htop]
    exact hnext (hinv.usedSlots k (by omega))
  case seVxNn | sneVxNn | seVxVy | sneVxVy =>
    simp only at htable
    rw [htable]
    split
    · exact hskip hpc
    · exact hnext hpc
  case skpVx =>
    obtain ⟨k, -, hkey⟩ := htable
    rw [hkey]
    split
    · exact hskip hpc
    · exact hnext hpc
  case sknpVx =>
    obtain ⟨k, -, hkey⟩ := htable
    rw [hkey]
    split
    · exact hnext hpc
    · exact hskip hpc
  case ldVxK =>
    simp only at htable
    split at htable
    · rw [htable]; exact hnext hpc
    · rw [htable]; omega
  all_goals
    rw [show t.pc = s.pc + 2 from htable]
    exact hnext hpc

theorem exec_keeps_inv (hinv : s.Inv) (hpc : s.pc.toNat ≤ 4094) (h : exec i s = .next t) : t.Inv where
  memCanonical := exec_keeps_memCanonical hinv h
  usedSlots := exec_keeps_usedSlots hinv hpc h
  freeSlots := exec_keeps_freeSlots hinv h
  pcBound := exec_pcBound hinv hpc h

end

/-- Settles O18: the fetch puts PC at 4094 at most, the instruction keeps each part of the invariant, and neither the latch nor the
tick is part of it. -/
theorem stepKeepsTheInvariant : Obligations.StepKeepsTheInvariant := by
  intro s t hinv h
  obtain ⟨hr, i, u, -, he, rfl, -, -⟩ := step_next_inv h
  have hlatched : (s.setOpcode (fetchWord s)).Inv := hinv.congr rfl rfl rfl rfl
  have hexec := exec_keeps_inv hlatched ((fetchInRange_iff s).mp hr) he
  exact hexec.congr rfl rfl rfl rfl

/-- What a failing step leaves: the state, or the state with the latch written. -/
theorem afterStep_of_fault {s : State} {r : Fault} (h : step s = .fault r) : ∃ w, afterStep s = s.setOpcode w := by
  rcases step_fault_inv h with ⟨-, -, ha, -⟩ | ⟨-, ha, -⟩
  · exact ⟨s.opcode, ha⟩
  · exact ⟨_, ha⟩

theorem afterStep_inv {s : State} (hinv : s.Inv) : (afterStep s).Inv := by
  cases hs : step s with
  | next t =>
    obtain ⟨-, i, u, -, -, -, ha, -⟩ := step_next_inv hs
    rw [ha]
    exact stepKeepsTheInvariant s t hinv hs
  | fault r =>
    obtain ⟨w, ha⟩ := afterStep_of_fault hs
    rw [ha]
    exact hinv.congr rfl rfl rfl rfl
  | refused r => exact absurd hs (step_ne_refused s r)

theorem loadProgram_inv {s : State} (hinv : s.Inv) (bytes : List Byte) : (loadProgram bytes s).1.Inv := by
  unfold loadProgram
  split
  case isFalse => exact hinv
  case isTrue hlen =>
    have hfit : Config.progBase + bytes.length ≤ 4096 := by
      simp only [loadLimit] at hlen
      simp only [Config.progBase]
      omega
    exact ⟨Memory.wf_writeBlock hinv.memCanonical hfit, hinv.usedSlots, hinv.freeSlots, hinv.pcBound⟩

/-- Settles O20: reset establishes the invariant, a load stays inside memory, a step keeps it, and the rest touches none of it. -/
theorem callerKeepsTheInvariant : Obligations.CallerKeepsTheInvariant := by
  intro op s hinv
  cases op with
  | reset => exact (resetWith_inv s.mem.font).congr rfl rfl rfl rfl
  | loadProgram bytes => exact loadProgram_inv hinv bytes
  | step => exact afterStep_inv hinv
  | writeKey k b => exact hinv.congr rfl rfl rfl rfl
  | clearDraw => exact hinv.congr rfl rfl rfl rfl
  | readFramebuffer => exact hinv
  | readDraw => exact hinv
  | readSnapshot => exact hinv

/-! ### The font table (R8) -/

theorem exec_keeps_font {i : Instr} {s t : State} (h : exec i s = .next t) : t.mem.font = s.mem.font := by
  obtain ⟨-, -, hmem | ⟨x, rfl | rfl⟩, -⟩ := onlyTheListedInstructionsWrite i s t h
  · rw [hmem]
  · obtain ⟨-, rfl⟩ := exec_ldBVx_next.mp h
    exact Memory.writeBlock_font _ _ _
  · obtain ⟨-, rfl⟩ := exec_ldMiVx_next.mp h
    exact Memory.writeBlock_font _ _ _

theorem afterStep_font (s : State) : (afterStep s).mem.font = s.mem.font := by
  cases hs : step s with
  | next t =>
    obtain ⟨-, i, u, -, he, rfl, ha, -⟩ := step_next_inv hs
    rw [ha]
    have hfont := exec_keeps_font he
    exact hfont
  | fault r =>
    obtain ⟨w, ha⟩ := afterStep_of_fault hs
    rw [ha]; rfl
  | refused r => exact absurd hs (step_ne_refused s r)

/-- Settles O21: stores keep the table, and `reset` starts from the machine's own. -/
theorem fontTableIsFixedForARun : Obligations.FontTableIsFixedForARun := by
  intro s
  refine ⟨fun t h => ?_, afterStep_font s, fun op => ?_⟩
  · obtain ⟨-, i, u, -, -, -, ha, -⟩ := step_next_inv h
    rw [← ha]
    exact afterStep_font s
  · cases op with
    | loadProgram bytes =>
      change (loadProgram bytes s).1.mem.font = _
      unfold loadProgram
      split
      · exact Memory.writeBlock_font _ _ _
      · rfl
    | step => exact afterStep_font s
    | reset | writeKey | clearDraw | readFramebuffer | readDraw | readSnapshot => rfl

/-! ### The canonical form (R50, log 4) -/

/-- An address below every listed cell reads as `reset` left it. -/
theorem readCells_of_below {font : FontTable} {a : Nat} {cells : List Host.Cell} (h : ∀ c ∈ cells, a < c.1) :
    readCells font a cells = Memory.unlisted font a := by
  induction cells with
  | nil => rfl
  | cons c rest ih =>
    have hc : c.1 ≠ a := Nat.ne_of_gt (h c (by simp))
    rw [readCells, if_neg hc, ih (fun d hd => h d (by simp [hd]))]

/-- What lies below the head of a canonical list lies below the whole list. -/
theorem below_of_lt_head {font : FontTable} {a : Nat} {c : Host.Cell} {rest : List Host.Cell}
    (h : cellsWf font (c :: rest) = true) (ha : a < c.1) : ∀ d ∈ c :: rest, a < d.1 := by
  obtain ⟨-, -, hrise, -⟩ := cellsWf_cons.mp h
  intro d hd
  rcases List.mem_cons.mp hd with rfl | hd
  · exact ha
  · exact Nat.lt_trans ha (hrise d hd)

/-- A canonical list lists no byte that `reset` left, so at its head it differs from any list that lies above. -/
theorem readCells_head_ne {font : FontTable} {c : Host.Cell} {rest cells' : List Host.Cell}
    (h : cellsWf font (c :: rest) = true) (hbelow : ∀ d ∈ cells', c.1 < d.1) :
    readCells font c.1 (c :: rest) ≠ readCells font c.1 cells' := by
  obtain ⟨-, hne, -, -⟩ := cellsWf_cons.mp h
  rw [readCells, if_pos rfl, readCells_of_below hbelow]
  exact hne

/-- Canonical lists that read the same begin with the same address, hence the same byte, and go on with lists that read the same. -/
theorem cells_eq_of_readCells {font : FontTable} {cells cells' : List Host.Cell} (h : cellsWf font cells = true)
    (h' : cellsWf font cells' = true) (hread : ∀ a, a ≤ 4095 → readCells font a cells = readCells font a cells') :
    cells = cells' := by
  induction cells generalizing cells' with
  | nil =>
    cases cells' with
    | nil => rfl
    | cons c' rest' =>
      obtain ⟨hlt', -, -, -⟩ := cellsWf_cons.mp h'
      exact absurd (hread c'.1 (by omega)).symm (readCells_head_ne h' (by simp))
  | cons c rest ih =>
    obtain ⟨hlt, -, hrise, hwf⟩ := cellsWf_cons.mp h
    cases cells' with
    | nil => exact absurd (hread c.1 (by omega)) (readCells_head_ne h (by simp))
    | cons c' rest' =>
      obtain ⟨hlt', -, hrise', hwf'⟩ := cellsWf_cons.mp h'
      have haddr : c.1 = c'.1 := by
        rcases Nat.lt_trichotomy c.1 c'.1 with hlow | heq | hhigh
        · exact absurd (hread c.1 (by omega)) (readCells_head_ne h (below_of_lt_head h' hlow))
        · exact heq
        · exact absurd (hread c'.1 (by omega)).symm (readCells_head_ne h' (below_of_lt_head h hhigh))
      have hbyte : c.2 = c'.2 := by simpa only [readCells, haddr, if_true] using hread c.1 (by omega)
      have hrest : ∀ a, a ≤ 4095 → readCells font a rest = readCells font a rest' := by
        intro a ha
        by_cases hac : c.1 = a
        · subst hac
          rw [readCells_of_below hrise, readCells_of_below (haddr ▸ hrise')]
        · simpa only [readCells, if_neg hac, if_neg (haddr ▸ hac)] using hread a ha
      rw [Prod.ext haddr hbyte, ih hwf hwf' hrest]

/-- Settles O22: equal fonts and equal cells are equal memories. -/
theorem equalContentsAreEqualMemories : Obligations.EqualContentsAreEqualMemories := by
  rintro ⟨font, cells⟩ ⟨font', cells'⟩ h h' hfont hread
  change font = font' at hfont
  subst hfont
  exact congrArg (Memory.mk font) (cells_eq_of_readCells h h' hread)

/-! ### Reset and load (R37, R261 to R265) -/

/-- Settles O26: the two states are built alike but for the count of draws, and memory has nothing listed. -/
theorem resetLeavesTheListedValues : Obligations.ResetLeavesTheListedValues := by
  rintro font s t (⟨rfl, rfl⟩ | rfl)
  all_goals
    refine ⟨rfl, rfl, rfl, rfl, rfl, rfl, rfl, ?_, ?_, ?_, fun x y _ _ => fbGet_clear x y,
      Memory.unlisted_font _, fun a ha _ => Memory.unlisted_zero _ ha⟩
    all_goals
      intro k
      simp [State.getV, State.resetWith, resetOp]

theorem loadProgram_of_long {bytes : List Byte} (h : 3584 ≤ bytes.length) (s : State) :
    loadProgram bytes s = (s, .programTooLarge) := if_neg (Nat.not_lt.mpr h)

theorem loadProgram_of_short {bytes : List Byte} (h : bytes.length < 3584) (s : State) :
    loadProgram bytes s = (s.setMem (Memory.writeBlock s.mem 0x200 bytes), .loaded) := if_pos h

/-- A block store puts byte `k` at address `base + k`. -/
theorem Memory.read_writeBlock_inside (m : Memory) (base : Nat) (bs : List Byte) {k : Nat} (hk : k < bs.length) :
    Memory.read (Memory.writeBlock m base bs) (base + k) = bs[k] := by
  rw [Memory.read_writeBlock, dif_pos ⟨by omega, by omega⟩]
  simp

/-- Settles O27: a load is one block store at 0x200. -/
theorem loadProgramCopiesOrFails : Obligations.LoadProgramCopiesOrFails := by
  intro bytes s
  refine ⟨fun h => loadProgram_of_long h s, fun h => ?_⟩
  rw [loadProgram_of_short h]
  refine ⟨rfl, fun k hk => Memory.read_writeBlock_inside s.mem 0x200 bytes hk, ?_⟩
  exact (ChangesOnly.refl _ s).writeBlock fun a hlo hhi => ⟨a, rfl, hlo, hhi⟩

/-- Settles O28: after reset PC is where the load puts byte 0. -/
theorem firstFetchIsTheProgramsFirstWord : Obligations.FirstFetchIsTheProgramsFirstWord := by
  intro hi lo rest s h
  have hlen : (hi :: lo :: rest).length < 3584 := by simp only [List.length_cons]; omega
  have hread := ((loadProgramCopiesOrFails (hi :: lo :: rest) (resetOp s)).2 hlen).2.1
  have hpc : (loadProgram (hi :: lo :: rest) (resetOp s)).1.pc = 0x200 := by rw [loadProgram_of_short hlen]; rfl
  have h0 := hread 0 (by simp)
  have h1 := hread 1 (by simp)
  rw [fetchWord, hpc]
  exact congrArg₂ (· ++ ·) h0 h1

/-- Settles O29: read off `callerDo` (R260). -/
theorem onlyResetBeforeReset : Obligations.OnlyResetBeforeReset :=
  fun _ _ => ⟨rfl, fun _ => ⟨_, rfl⟩⟩

/-- Settles O30: a key write and the clearing of DRAW are one update each, the reads none (R39, R40, R267, R268). -/
theorem callerWritesAndReads : Obligations.CallerWritesAndReads := by
  intro s k b
  refine ⟨⟨?_, ?_⟩, ⟨rfl, ?_⟩, rfl, rfl, rfl⟩
  · exact (s.key_setKey k k b).trans (if_pos rfl)
  · exact (ChangesOnly.refl (· = .key k) s).setKey rfl b
  · exact (ChangesOnly.refl (· = .draw) s).setDraw rfl false

/-! ### A word in place (R52, R103) -/

theorem withFetchWord_eq {s : State} (hpc : s.pc.toNat ≤ 4094) (w : Word) :
    s.withFetchWord 16 w.toNat = s.setMem (Memory.writeBlock s.mem s.pc.toNat (wordBytes w)) := by
  rw [State.withFetchWord, Nat.mod_eq_of_lt w.isLt, BitVec.ofNat_toNat, BitVec.setWidth_eq, placeWord,
    if_pos ((fetchInRange_iff s).mpr hpc)]

/-- Settles O7: the two bytes of the word stand where the fetch reads, and they decode to the instruction. -/
theorem placedWordIsFetched : Obligations.PlacedWordIsFetched := by
  intro s i hpc
  rw [withFetchWord_eq hpc]
  constructor
  · have h0 := Memory.read_writeBlock_inside s.mem s.pc.toNat (wordBytes (encode i)) (k := 0) (by simp [wordBytes])
    have h1 := Memory.read_writeBlock_inside s.mem s.pc.toNat (wordBytes (encode i)) (k := 1) (by simp [wordBytes])
    have hbytes : fetchBytes (s.setMem (Memory.writeBlock s.mem s.pc.toNat (wordBytes (encode i)))) = encodeBytes i :=
      congrArg₂ (fun a b => [a, b]) h0 h1
    rw [hbytes]
    exact (decodeOfEncodeIsTheInstruction i).2
  · refine (ChangesOnly.refl _ s).writeBlock fun a hlo hhi => ?_
    have hlen : (wordBytes (encode i)).length = 2 := rfl
    have ha : a = s.pc.toNat ∨ a = s.pc.toNat + 1 := by omega
    simpa using ha

end Sys2Proof.Machine
end

section
/-!
PROOFS. Control flow (`42_control_flow.md`): the call 2NNN and the return 00EE.
-/

namespace Sys2Proof.Machine

/-! ### The frames of a push and of a pop (R27) -/

section
variable {p : Elem → Prop} {s t : State} {k : Fin 16}

theorem ChangesOnly.push (h : ChangesOnly p s t) (hk : k.val = t.sp.val) (hp : p (.stack k)) (hsp : p .sp) (w : Word)
    (hlt : t.sp.val < 16) : ChangesOnly p s (t.push w hlt) := by
  intro e he
  have hs := h e he
  cases e
  case stack j =>
    have hj : j.val ≠ t.sp.val := fun hj => he (Fin.ext (hj.trans hk.symm) ▸ hp)
    exact ((t.stack_push w hlt j).trans (if_neg hj)).trans hs
  case sp => exact absurd hsp he
  all_goals exact hs

theorem ChangesOnly.pop (h : ChangesOnly p s t) (hk : k.val + 1 = t.sp.val) (hp : p (.stack k)) (hsp : p .sp) :
    ChangesOnly p s t.pop := by
  intro e he
  have hs := h e he
  cases e
  case stack j =>
    have hj : j.val ≠ t.sp.val - 1 := fun hj => he ((Fin.ext (by omega) : k = j) ▸ hp)
    exact ((t.stack_pop j).trans (if_neg hj)).trans hs
  case sp => exact absurd hsp he
  all_goals exact hs

end

/-! ### 2NNN and 00EE (R131, R133, R134) -/

/-- Settles O37: a push of PC, then a jump (R133). -/
theorem callPushesItsOwnAddress : Obligations.CallPushesItsOwnAddress := by
  intro nnn s k hk
  have hlt : s.sp.val < 16 := hk ▸ k.isLt
  refine ⟨_, exec_callNnn_next.mpr ⟨hlt, rfl⟩, ?slot, rfl, targetNnn_toNat nnn, ?frame⟩
  case slot => exact (s.stack_push s.pc hlt k).trans (if_pos hk)
  case frame => exact ((ChangesOnly.refl _ s).push hk (by simp) (by simp) s.pc hlt).setPc (by simp) _

/-- Settles O38: a pop, whose slot is the one in use last, then a jump past the call (R131). -/
theorem returnPopsAndZeroesTheSlot : Obligations.ReturnPopsAndZeroesTheSlot := by
  intro s k hk
  have hsp : s.sp.val ≠ 0 := by omega
  refine ⟨_, exec_ret_next.mpr ⟨hsp, rfl⟩, ?sp, ?pc, ?slot, ?frame⟩
  case sp => change s.sp.val - 1 = k.val; omega
  case pc => exact congrArg (· + 2) (State.top_eq hk)
  case slot => exact (s.stack_pop k).trans (if_pos (by omega))
  case frame => exact ((ChangesOnly.refl _ s).pop hk (by simp) (by simp)).setPc (by simp) _

/-- A pop after a push leaves every slot as it was, if the free slots held 0. -/
theorem stack_pop_of_push {s t : State} {w : Word} (hinv : s.Inv) (hlt : s.sp.val < 16)
    (hstack : t.stack = (s.push w hlt).stack) (hsp : t.sp.val = s.sp.val + 1) : t.pop.stack = s.stack := by
  apply Vector.ext
  intro j hj
  have hpop := t.stack_pop ⟨j, hj⟩
  have hpush := s.stack_push w hlt ⟨j, hj⟩
  rw [hstack, hpush] at hpop
  refine hpop.trans ?_
  by_cases hjs : j = s.sp.val
  · rw [if_pos (by change j = _; omega)]
    exact (hinv.freeSlots ⟨j, hj⟩ (Nat.le_of_eq hjs.symm)).symm
  · rw [if_neg (by change ¬ j = _; omega), if_neg hjs]; rfl

/-- Settles O39: the return pops the slot the call pushed, and the zero it leaves there is the zero of a free slot (R134). -/
theorem callThenReturnComesBack : Obligations.CallThenReturnComesBack := by
  intro nnn s t t' hinv hcall hstack hsp
  obtain ⟨hlt, rfl⟩ := exec_callNnn_next.mp hcall
  have hsp' : t'.sp.val = s.sp.val + 1 := congrArg Fin.val hsp
  refine ⟨_, exec_ret_next.mpr ⟨by omega, rfl⟩, ?pc, ?sp, stack_pop_of_push hinv hlt hstack hsp'⟩
  case pc =>
    have htop : t'.top = s.pc := by
      rw [State.top_eq (k := ⟨s.sp.val, hlt⟩) hsp'.symm, hstack]
      exact (s.stack_push s.pc hlt ⟨_, hlt⟩).trans (if_pos rfl)
    exact congrArg (· + 2) htop
  case sp =>
    apply Fin.ext
    change t'.sp.val - 1 = s.sp.val
    omega

end Sys2Proof.Machine
end

section
/-!
PROOFS. ALU (`43_alu.md`), the flag writers 8XY4 to 8XYE, and CXNN. The five flag writers share `flagThenResult`: one lemma says what
it leaves in VX, one what in VF, one what it spares; the proofs then differ in the arithmetic alone.
-/

namespace Sys2Proof.Machine

/-! ### Flag, then result (R110, D9) -/

section
variable {x : Reg} {flag : Bool} {result : State → Byte} {s : State}

theorem getV_flagThenResult_same :
    (flagThenResult x flag result s).getV x = result (s.setV regF (flagByte flag)) := by
  rw [flagThenResult, State.getV_advance, State.getV_setV_same]

/-- The flag survives unless the result overwrites it. -/
theorem getV_flagThenResult_flag (hx : x ≠ 15) : (flagThenResult x flag result s).getV 15 = flagByte flag := by
  rw [flagThenResult, State.getV_advance, State.getV_setV_other _ hx.symm, State.getV_setV_same]

theorem changesOnly_flagThenResult :
    ChangesOnly (· ∈ [Elem.v x, Elem.v 15, Elem.pc]) s (flagThenResult x flag result s) :=
  (((ChangesOnly.refl _ s).setV (by simp) _).setV (by simp) _).advance (by simp)

end

/-! ### The flags as numbers (R157 to R161) -/

theorem flagByte_decide (q : Prop) [Decidable q] : flagByte (decide q) = if q then 1 else 0 := by
  simp only [flagByte, decide_eq_true_eq]

theorem toNat_flagByte_decide (q : Prop) [Decidable q] : (flagByte (decide q)).toNat = if q then 1 else 0 := by
  rw [flagByte_decide]; split <;> rfl

theorem toNat_flagByte_carryOut (a b : Byte) :
    (flagByte (carryOut a b)).toNat = if a.toNat + b.toNat > 255 then 1 else 0 := toNat_flagByte_decide _

theorem toNat_flagByte_noBorrow (a b : Byte) :
    (flagByte (noBorrow a b)).toNat = if a.toNat ≥ b.toNat then 1 else 0 := toNat_flagByte_decide _

theorem toNat_flagByte_shiftedOutRight (a : Byte) : (flagByte (shiftedOutRight a)).toNat = a.toNat % 2 := by
  rw [shiftedOutRight, BitVec.getLsbD, Nat.testBit_eq_decide_div_mod_eq, toNat_flagByte_decide]
  split <;> omega

theorem shiftedOutLeft_eq (a : Byte) : shiftedOutLeft a = decide (a.toNat ≥ 128) := by
  have hlt := a.isLt
  rw [shiftedOutLeft, BitVec.getLsbD, Nat.testBit_eq_decide_div_mod_eq, decide_eq_decide]
  omega

theorem toNat_flagByte_shiftedOutLeft (a : Byte) : (flagByte (shiftedOutLeft a)).toNat = a.toNat / 128 := by
  have hlt := a.isLt
  rw [shiftedOutLeft_eq, toNat_flagByte_decide]
  split <;> omega

/-! ### 8XY4, 8XY5, 8XY7 (R157, R158, R160, R165) -/

section
variable (x y : Reg) (s : State)

theorem exec_addVxVy :
    exec (.addVxVy x y) s =
      .next (flagThenResult x (carryOut (s.getV x) (s.getV y)) (fun t => t.getV x + t.getV y) s) := rfl

theorem exec_subVxVy :
    exec (.subVxVy x y) s =
      .next (flagThenResult x (noBorrow (s.getV x) (s.getV y)) (fun t => t.getV x - t.getV y) s) := rfl

theorem exec_subnVxVy :
    exec (.subnVxVy x y) s =
      .next (flagThenResult x (noBorrow (s.getV y) (s.getV x)) (fun t => t.getV y - t.getV x) s) := rfl

theorem exec_shrVx :
    exec (.shrVx x y) s = .next (flagThenResult x (shiftedOutRight (s.getV x)) (fun t => t.getV x >>> 1) s) := rfl

theorem exec_shlVx :
    exec (.shlVx x y) s = .next (flagThenResult x (shiftedOutLeft (s.getV x)) (fun t => t.getV x <<< 1) s) := rfl

end

/-- Subtraction of bytes, mod 256. -/
theorem toNat_sub_byte (a b : Byte) : (a - b).toNat = (a.toNat + 256 - b.toNat) % 256 := by
  have hb := b.isLt
  rw [BitVec.toNat_sub]
  congr 1
  omega

/-- The table of `43_alu.md` section 4 for an operation `f` on VX and VY: the flag `F` stands for the register numbered 15, because
the operands are read after the flag write. -/
theorem flagThenResult_table (x y : Reg) (flag : Bool) (f : Byte → Byte → Byte) (s t : State)
    (ht : t = flagThenResult x flag (fun u => f (u.getV x) (u.getV y)) s) :
    if x = 15 then t.getV 15 = if y = 15 then f (flagByte flag) (flagByte flag) else f (flagByte flag) (s.getV y)
    else t.getV x = (if y = 15 then f (s.getV x) (flagByte flag) else f (s.getV x) (s.getV y)) ∧
      t.getV 15 = flagByte flag := by
  subst ht
  split
  case isTrue hx =>
    subst hx
    rw [getV_flagThenResult_same, State.getV_setV, State.getV_setV, if_pos rfl]
    split <;> rfl
  case isFalse hx =>
    refine ⟨?_, getV_flagThenResult_flag hx⟩
    rw [getV_flagThenResult_same, State.getV_setV, State.getV_setV, if_neg hx]
    split <;> rfl

/-- The same table in numbers: `g` is what `f` does to the values of two bytes, `c` the value of the flag. -/
theorem flagThenResult_numberTable {flag : Bool} {f : Byte → Byte → Byte} {c : Nat} (g : Nat → Nat → Nat) (x y : Reg)
    (s : State) (hc : (flagByte flag).toNat = c) (hg : ∀ a b, (f a b).toNat = g a.toNat b.toNat) {t : State}
    (ht : t = flagThenResult x flag (fun u => f (u.getV x) (u.getV y)) s) :
    if x = 15 then (t.getV 15).toNat = if y = 15 then g c c else g c (s.getV y).toNat
    else (t.getV x).toNat = (if y = 15 then g (s.getV x).toNat c else g (s.getV x).toNat (s.getV y).toNat) ∧
      (t.getV 15).toNat = c := by
  have htable := flagThenResult_table x y flag f s t ht
  subst hc
  by_cases hx : x = 15
  · rw [if_pos hx] at htable ⊢
    rw [htable]
    split <;> exact hg _ _
  · rw [if_neg hx] at htable ⊢
    obtain ⟨hvx, hvf⟩ := htable
    rw [hvx, hvf]
    refine ⟨?_, rfl⟩
    split <;> exact hg _ _

/-- Twice a flag does not wrap. -/
theorem flag_add_flag (q : Prop) [Decidable q] :
    ((if q then 1 else 0) + (if q then 1 else 0)) % 256 = 2 * if q then 1 else 0 := by
  split <;> rfl

/-- Settles O42: the table of the sum; with X = Y = 15 it is twice the carry. -/
theorem addWithCarryOut : Obligations.AddWithCarryOut := by
  intro x y s
  refine ⟨_, exec_addVxVy x y s, ?_, rfl, changesOnly_flagThenResult⟩
  have htable := flagThenResult_numberTable (f := (· + ·)) (fun a b => (a + b) % 256) x y s
    (toNat_flagByte_carryOut (s.getV x) (s.getV y)) BitVec.toNat_add rfl
  simp only [flag_add_flag] at htable
  exact htable

/-- Settles O43: the table of the difference; with X = Y = 15 the flag is taken from itself. -/
theorem subtractWithNoBorrowFlag : Obligations.SubtractWithNoBorrowFlag := by
  intro x y s
  refine ⟨_, exec_subVxVy x y s, ?_, rfl, changesOnly_flagThenResult⟩
  have htable := flagThenResult_numberTable (f := (· - ·)) (fun a b => (a + 256 - b) % 256) x y s
    (toNat_flagByte_noBorrow (s.getV x) (s.getV y)) toNat_sub_byte rfl
  simp only [Nat.add_sub_cancel_left, Nat.mod_self] at htable
  exact htable

/-- Settles O44: the same with the operands of the difference and of the test exchanged. -/
theorem reverseSubtractWithNoBorrowFlag : Obligations.ReverseSubtractWithNoBorrowFlag := by
  intro x y s
  refine ⟨_, exec_subnVxVy x y s, ?_, rfl, changesOnly_flagThenResult⟩
  have htable := flagThenResult_numberTable (f := fun a b => b - a) (fun a b => (b + 256 - a) % 256) x y s
    (toNat_flagByte_noBorrow (s.getV y) (s.getV x)) (fun a b => toNat_sub_byte b a) rfl
  simp only [Nat.add_sub_cancel_left, Nat.mod_self] at htable
  exact htable

/-- Settles O45: with X = 15 the flag, 0 or 1, is shifted itself: right to 0, left to 0 or 2. -/
theorem shiftsByOneWithFlag : Obligations.ShiftsByOneWithFlag := by
  intro x y s
  refine ⟨⟨_, exec_shrVx x y s, ?right, rfl, changesOnly_flagThenResult⟩,
    ⟨_, exec_shlVx x y s, ?left, rfl, changesOnly_flagThenResult⟩⟩
  case right =>
    have htable := flagThenResult_table x y (shiftedOutRight (s.getV x)) (fun a _ => a >>> 1) s _ rfl
    simp only [ite_self] at htable
    by_cases hx : x = 15
    · rw [if_pos hx] at htable ⊢
      rw [htable]
      cases shiftedOutRight (s.getV x) <;> rfl
    · rw [if_neg hx] at htable ⊢
      obtain ⟨hvx, hvf⟩ := htable
      rw [hvx, hvf, toNat_flagByte_shiftedOutRight, BitVec.toNat_ushiftRight, Nat.shiftRight_one]
      exact ⟨rfl, rfl⟩
  case left =>
    have htable := flagThenResult_table x y (shiftedOutLeft (s.getV x)) (fun a _ => a <<< 1) s _ rfl
    simp only [ite_self] at htable
    by_cases hx : x = 15
    · rw [if_pos hx] at htable ⊢
      subst hx
      rw [htable, shiftedOutLeft_eq, flagByte_decide]
      split <;> rfl
    · rw [if_neg hx] at htable ⊢
      obtain ⟨hvx, hvf⟩ := htable
      rw [hvx, hvf, toNat_flagByte_shiftedOutLeft, BitVec.toNat_shiftLeft, Nat.shiftLeft_eq]
      exact ⟨rfl, rfl⟩

/-- Settles O46: with X other than 15 VF keeps the flag, which is the test on the old values. -/
theorem flagTestsKeepTheirOperandOrder : Obligations.FlagTestsKeepTheirOperandOrder := by
  intro x y s t hx
  refine ⟨fun h => ?add, fun h => ?sub, fun h => ?subn⟩
  all_goals
    cases h
    exact (getV_flagThenResult_flag hx).trans (flagByte_decide _)

/-! ### CXNN (R162, R166) -/

/-- The model's count of draws stands in a frame like any other element. -/
theorem ChangesOnly.setDraws {p : Elem → Prop} {s t : State} (h : ChangesOnly p s t) (hp : p .draws) (d : Nat) :
    ChangesOnly p s { t with draws := d } := by
  intro e he
  have hs := h e he
  cases e
  case draws => exact absurd hp he
  all_goals exact hs

theorem changesOnly_setV_draws_advance (s : State) (x : Reg) (b : Byte) (d : Nat) :
    ChangesOnly (· ∈ [Elem.v x, Elem.draws, Elem.pc]) s ({ s.setV x b with draws := d } : State).advance :=
  (((ChangesOnly.refl _ s).setV (by simp) b).setDraws (by simp) d).advance (by simp)

theorem exec_rndVxNn (x : Reg) (nn : Byte) (s : State) :
    exec (.rndVxNn x nn) s = .next (s.setV x (s.draw8 &&& nn)).nextDraw.advance := rfl

/-- Settles O47: VX is the drawn byte under the mask, whatever the byte is. -/
theorem randomByteIsMasked : Obligations.RandomByteIsMasked := by
  intro x nn s
  have hvx : (s.setV x (s.draw8 &&& nn)).nextDraw.advance.getV x = Config.randomByte s.draws &&& nn := s.getV_setV_same x _
  refine ⟨_, exec_rndVxNn x nn s, hvx, ?mask, rfl, rfl, changesOnly_setV_draws_advance s x _ _⟩
  case mask => rw [hvx, BitVec.and_assoc, BitVec.and_not_self]; exact BitVec.and_zero

end Sys2Proof.Machine
end

section
/-!
PROOFS. Memory transfer (`44_index_memory.md`): FX33, FX55 and FX65, each one block of consecutive bytes at I.
-/

namespace Sys2Proof.Machine

/-! ### Blocks of registers (R186, R187) -/

section
variable {p : Elem → Prop} {s t : State}

/-- A store of V0 to VX puts Vr at `base + r`. -/
theorem Memory.read_storeBlock (m : Memory) (base : Nat) (s : State) {x r : Reg} (hr : r ≤ x) :
    Memory.read (Memory.writeBlock m base (s.blockV x)) (base + r.val) = s.getV r := by
  have hv : r.val ≤ x.val := hr
  rw [Memory.read_writeBlock_inside _ _ _ (by rw [State.blockV_length]; omega), State.blockV_getElem]
  exact congrArg s.getV (Fin.ext (Nat.mod_eq_of_lt r.isLt))

theorem ChangesOnly.loadBlock (h : ChangesOnly p s t) {x : Reg} (hp : ∀ r ≤ x, p (.v r)) (m : Memory) (base : Nat) :
    ChangesOnly p s (t.loadV 0 (Memory.readBlock m base (x.val + 1))) := by
  intro e he
  have hs := h e he
  rw [State.loadV_eq]
  cases e
  case v r =>
    have hr : ¬ r ≤ x := fun hr => he (hp r hr)
    exact ((t.getV_loadBlock m base x r).trans (if_neg hr)).trans hs
  all_goals exact hs

end

/-! ### FX33, FX55, FX65 (R185 to R188) -/

/-- Settles O49: a block store of the three digits, each below 10 (R185). -/
theorem bcdStoresThreeDigits : Obligations.BcdStoresThreeDigits := by
  intro x s hr
  have hread (k : Nat) (hk : k < 3) := Memory.read_writeBlock_inside s.mem (baseAddr s) (bcdDigits (s.getV x)) (k := k) hk
  have hlt := (s.getV x).isLt
  refine ⟨_, exec_ldBVx_next.mpr ⟨by omega, rfl⟩, ?hundreds, ?tens, ?ones, rfl, ?frame⟩
  case hundreds =>
    refine (congrArg BitVec.toNat (hread 0 (by omega))).trans ?_
    change (BitVec.ofNat 8 ((s.getV x).toNat / 100)).toNat = _
    rw [BitVec.toNat_ofNat]; omega
  case tens =>
    refine (congrArg BitVec.toNat (hread 1 (by omega))).trans ?_
    change (BitVec.ofNat 8 ((s.getV x).toNat / 10 % 10)).toNat = _
    rw [BitVec.toNat_ofNat]; omega
  case ones =>
    refine (congrArg BitVec.toNat (hread 2 (by omega))).trans ?_
    change (BitVec.ofNat 8 ((s.getV x).toNat % 10)).toNat = _
    rw [BitVec.toNat_ofNat]; omega
  case frame =>
    exact ((ChangesOnly.refl _ s).writeBlock fun a hlo hhi => .inr ⟨a, rfl, hlo, hhi⟩).advance (.inl rfl)

/-- Settles O50: a block store of the registers (R186). -/
theorem storeRegistersWritesTheBlock : Obligations.StoreRegistersWritesTheBlock := by
  intro x s hr
  refine ⟨_, exec_ldMiVx_next.mpr ⟨by omega, rfl⟩, ?bytes, rfl, ?frame⟩
  case bytes => exact fun r hrx => Memory.read_storeBlock s.mem (baseAddr s) s hrx
  case frame =>
    refine ((ChangesOnly.refl _ s).writeBlock fun a hlo hhi => ?_).advance (.inl rfl)
    rw [State.blockV_length] at hhi
    exact .inr ⟨a, rfl, hlo, hhi⟩

/-- Settles O51: a block load of the registers (R187). -/
theorem loadRegistersReadsTheBlock : Obligations.LoadRegistersReadsTheBlock := by
  intro x s hr
  refine ⟨_, exec_ldVxMi_next.mpr ⟨by omega, rfl⟩, ?regs, ?pc, ?frame⟩
  case regs => exact fun r hrx => (s.getV_loadBlock s.mem (baseAddr s) x r).trans (if_pos hrx)
  case pc => rw [State.advance_pc, State.loadV_pc]
  case frame =>
    exact ((ChangesOnly.refl _ s).loadBlock (fun r hrx => .inr ⟨r, rfl, hrx⟩) s.mem (baseAddr s)).advance (.inl rfl)

/-- Settles O52: the load reads the addresses the store wrote. -/
theorem storedRegistersLoadBack : Obligations.StoredRegistersLoadBack := by
  intro x s t u hstore hmem hi
  obtain ⟨hr, rfl⟩ := exec_ldMiVx_next.mp hstore
  refine ⟨_, exec_ldVxMi_next.mpr ⟨by rw [hi]; exact hr, rfl⟩, fun r => ⟨fun hrx => ?stored, fun hxr => ?kept⟩⟩
  case stored =>
    have hbase : baseAddr u = baseAddr s := congrArg BitVec.toNat hi
    rw [State.getV_advance, State.getV_loadBlock, if_pos hrx, hmem, hbase]
    exact Memory.read_storeBlock s.mem (baseAddr s) s hrx
  case kept => rw [State.getV_advance, State.getV_loadBlock, if_neg (Fin.not_le.mpr hxr)]

/-- Settles O53: the store is where PC goes next, and PC does not wrap there. -/
theorem storedInstructionIsFetchedNext : Obligations.StoredInstructionIsFetchedNext := by
  intro x s t hstore hx hi
  obtain ⟨hr, rfl⟩ := exec_ldMiVx_next.mp hstore
  have hpc : (s.pc + 2).toNat = baseAddr s := by
    rw [BitVec.toNat_add, baseAddr, hi]
    exact Nat.mod_eq_of_lt (by change s.pc.toNat + 2 < 65536; omega)
  have h0 := Memory.read_storeBlock s.mem (baseAddr s) s (Fin.zero_le x)
  have h1 := Memory.read_storeBlock s.mem (baseAddr s) s (x := x) (r := 1) hx
  rw [fetchWord, State.advance_pc, State.setMem_pc, hpc]
  exact congrArg₂ (· ++ ·) h0 h1

end Sys2Proof.Machine
end

section
/-!
PROOFS. Keypad (`45_keypad_timers.md`): EX9E, EXA1 and FX0A.
-/

namespace Sys2Proof.Machine

/-- Settles O54: both skip on the key VX names, which exists (R201, R202). -/
theorem keySkipsFollowTheKey : Obligations.KeySkipsFollowTheKey := by
  intro x s k hk
  have hv : (s.getV x).toNat < 16 := hk ▸ k.isLt
  refine ⟨⟨_, exec_skpVx_next.mpr ⟨hv, rfl⟩, ?skp, changesOnly_skipIf s _⟩,
    ⟨_, exec_sknpVx_next.mpr ⟨hv, rfl⟩, ?sknp, changesOnly_skipIf s _⟩⟩
  case skp => rw [State.skipIf_pc, keyAt_eq hk]
  case sknp =>
    rw [State.skipIf_pc, keyAt_eq hk]
    cases s.key[k] <;> rfl

/-- Settles O55: the two things FX0A can do (R204). -/
theorem keyWaitTakesAPressedKey : Obligations.KeyWaitTakesAPressedKey := by
  intro x s
  by_cases hnone : ∀ k : Key, s.key[k] = false
  · refine ⟨s, exec_ldVxK_waits hnone, fun _ => rfl, ?_⟩
    rintro ⟨k, hk⟩
    rw [hnone k] at hk
    cases hk
  · rcases execLdVxK_cases x s with ⟨hk, -⟩ | ⟨k, hk, d, he⟩
    · exact absurd hk hnone
    · refine ⟨_, he, fun h => absurd h hnone, fun _ => ⟨⟨k, hk, ?_⟩, rfl, changesOnly_setV_draws_advance s x _ d⟩⟩
      have hvx := s.getV_setV_same x (BitVec.ofNat 8 k.val)
      refine (congrArg BitVec.toNat hvx).trans ?_
      rw [BitVec.toNat_ofNat]
      omega

end Sys2Proof.Machine
end

section
/-!
PROOFS. Display (`41_display.md`), DXYN: one flip of the cells on which a set sprite bit falls, each such cell once.
-/

namespace Sys2Proof.Machine

section
variable {x y : Reg} {n : Nib} {s : State}

/-- The cells after DXYN: those under a set sprite bit are inverted. -/
theorem fbGet_drawn {col row : Nat} (hcol : col < 64) (hrow : row < 32) :
    fbGet (drawn x y n s).fb col row = (fbGet s.fb col row ^^ decide ((col, row) ∈ drawTargets x y n s)) :=
  fbGet_flipCells_nodup s.fb (nodup_spriteCells _ _ _) col row hcol hrow

theorem getV_drawn_flag : (drawn x y n s).getV 15 = flagByte (collides s.fb (drawTargets x y n s)) :=
  State.getV_setV_same _ _ _

theorem collides_drawTargets_iff (fb : Framebuffer) :
    collides fb (drawTargets x y n s) = true ↔ ∃ col row, SpriteBitAt x y n s col row ∧ fbGet fb col row = true := by
  simp only [collides_iff, Prod.exists, mem_drawTargets]

theorem changesOnly_drawn :
    ChangesOnly (fun e => e = .v 15 ∨ e = .draw ∨ e = .pc ∨ ∃ a b, e = .fb a b) s (drawn x y n s) :=
  ((((ChangesOnly.refl _ s).setFb (fun a b => .inr (.inr (.inr ⟨a, b, rfl⟩))) _).setV (.inl rfl) _).setDraw
    (.inr (.inl rfl)) true).advance (.inr (.inr (.inl rfl)))

end

/-- Settles O33: DXYN flips its targets, and a target is a cell under a set sprite bit (R121, R122). -/
theorem drwXorsTheSpriteAndReportsCollision : Obligations.DrwXorsTheSpriteAndReportsCollision := by
  intro x y n s hr hgrid
  have honGrid : ∀ c ∈ drawTargets x y n s, c.1 < 64 ∧ c.2 < 32 := by
    intro c hc
    obtain ⟨hcol, hrow⟩ := hgrid c.1 c.2 (mem_drawTargets.mp hc)
    omega
  refine ⟨_, exec_drwVxVyN_next.mpr ⟨by omega, honGrid, rfl⟩, fun col row hcol hrow => ⟨fun hb => ?set, fun hb => ?clear⟩,
    fun hc => ?hit, fun hc => ?miss, rfl, rfl, changesOnly_drawn⟩
  case set => rw [fbGet_drawn hcol hrow, decide_eq_true (mem_drawTargets.mpr hb), Bool.xor_true]
  case clear => rw [fbGet_drawn hcol hrow, decide_eq_false (fun hm => hb (mem_drawTargets.mp hm)), Bool.xor_false]
  case hit => rw [getV_drawn_flag, (collides_drawTargets_iff s.fb).mpr hc]; rfl
  case miss => rw [getV_drawn_flag, Bool.eq_false_iff.mpr (fun h => hc ((collides_drawTargets_iff s.fb).mp h))]; rfl

/-- Settles O34: the second draw has the same targets, so each is inverted twice; it collides where the first draw left 1, that is on
a target that held 0. -/
theorem drawingTwiceRestoresTheFramebuffer : Obligations.DrawingTwiceRestoresTheFramebuffer := by
  intro x y n s t u hfirst hx hy hsecond
  obtain ⟨-, honGrid, ht⟩ := exec_drwVxVyN_next.mp hfirst
  obtain ⟨-, -, rfl⟩ := exec_drwVxVyN_next.mp hsecond
  have htargets : drawTargets x y n t = drawTargets x y n s := by
    rw [drawTargets, hx, hy, ht]; rfl
  have hflip : ∀ col row, SpriteBitAt x y n s col row → fbGet t.fb col row = !fbGet s.fb col row := by
    intro col row hb
    have hm : (col, row) ∈ drawTargets x y n s := mem_drawTargets.mpr hb
    obtain ⟨hcol, hrow⟩ := honGrid _ hm
    rw [ht, fbGet_drawn hcol hrow, decide_eq_true hm, Bool.xor_true]
  constructor
  · apply fb_ext
    intro col row hcol hrow
    rw [fbGet_drawn hcol hrow, htargets, ht, fbGet_drawn hcol hrow, Bool.xor_assoc, Bool.xor_self, Bool.xor_false]
  · rw [getV_drawn_flag, htargets]
    have hone : ∀ b, flagByte b = 1 ↔ b = true := by decide
    rw [hone, collides_drawTargets_iff]
    refine exists₂_congr fun col row => and_congr_right fun hb => ?_
    rw [hflip col row hb, Bool.not_eq_true']

end Sys2Proof.Machine
end
